-- ==== Sys2Proof/Word.lean ====
section
/-! DEFINITION. The words of LMX (widths of rule R6), its register names (R21) and the register file as plain data (R20, R23). -/

namespace Sys2Proof

/-- One bit: `PIX_W` of R6. -/
abbrev Bit := BitVec 1

/-- A register's content, an address byte, a coordinate field: `REG_W`, `ADDR_W`, `COORD_W` of R6. -/
abbrev Byte := BitVec 8

/-- A CMD16 command frame (R71): `FRAME_W` of R6. -/
abbrev Frame := BitVec 16

/-- A REQ19 request word (R73). -/
abbrev ReqWord := BitVec 19

/-- The 13 storage registers (R21). -/
inductive Reg where
  | digit0 | digit1 | digit2 | digit3 | digit4 | digit5 | digit6 | digit7
  | decodeMode | intensity | scanLimit | shutdown | displayTest
  deriving DecidableEq, Repr

/-- The 14 register names (R21): NOOP, which has no storage (R23), and the storage registers. -/
inductive RegName where
  | noop
  | reg (r : Reg)
  deriving DecidableEq, Repr

/-- The 14 names in the order of R22's table. -/
def RegName.all : List RegName :=
  [.noop, .reg .digit0, .reg .digit1, .reg .digit2, .reg .digit3, .reg .digit4, .reg .digit5, .reg .digit6, .reg .digit7,
   .reg .decodeMode, .reg .intensity, .reg .scanLimit, .reg .shutdown, .reg .displayTest]

/-- D's register file (R20). A cell is `some v`, or `none` for the spec's unwritten mark ⊥: R23 gives the type
`Option (BitVec 8)` (log 1). -/
structure RegFile where
  digit0 : Option Byte
  digit1 : Option Byte
  digit2 : Option Byte
  digit3 : Option Byte
  digit4 : Option Byte
  digit5 : Option Byte
  digit6 : Option Byte
  digit7 : Option Byte
  decodeMode : Option Byte
  intensity : Option Byte
  scanLimit : Option Byte
  shutdown : Option Byte
  displayTest : Option Byte
  deriving DecidableEq, Repr

end Sys2Proof
end

