-- ==== Sys2Proof/Config.lean ====
section
/-! DEFINITION. The parameters of LMX (rule R6): `P_ADDR` and `DECODE_BITS` as plain data that State carries, and every OPEN
parameter as an opaque constant (a free value: nothing in Lean can evaluate it). The parameters' default values stand in
Decode.lean (`Params.default`). -/

namespace Sys2Proof

/-- `DECODE_BITS` of R6: how many address bits D compares, 8 or the admitted alternative 4 (D2). -/
inductive DecodeBits where
  | eight
  | four
  deriving DecidableEq, Repr

/-- `P_ADDR` of R22: one address byte for each of the 14 names. -/
structure PAddr where
  noop : Byte
  digit0 : Byte
  digit1 : Byte
  digit2 : Byte
  digit3 : Byte
  digit4 : Byte
  digit5 : Byte
  digit6 : Byte
  digit7 : Byte
  decodeMode : Byte
  intensity : Byte
  scanLimit : Byte
  shutdown : Byte
  displayTest : Byte
  deriving DecidableEq, Repr

/-- `P_ADDR(n)`. -/
def PAddr.of (p : PAddr) : RegName → Byte
  | .noop => p.noop
  | .reg .digit0 => p.digit0
  | .reg .digit1 => p.digit1
  | .reg .digit2 => p.digit2
  | .reg .digit3 => p.digit3
  | .reg .digit4 => p.digit4
  | .reg .digit5 => p.digit5
  | .reg .digit6 => p.digit6
  | .reg .digit7 => p.digit7
  | .reg .decodeMode => p.decodeMode
  | .reg .intensity => p.intensity
  | .reg .scanLimit => p.scanLimit
  | .reg .shutdown => p.shutdown
  | .reg .displayTest => p.displayTest

/-- The parameters a model takes as an argument (R6, R22). -/
structure Params where
  pAddr : PAddr
  decodeBits : DecodeBits
  deriving DecidableEq, Repr

/-- The link's answer to one emitted frame (R52): OK, or TransportError together with the second draw, whether D applied the
frame. -/
inductive LinkAnswer where
  | ok
  | error (applied : Bool)
  deriving DecidableEq, Repr, Inhabited

/-- `LINK_RESULT` (R6, R52): a draw per transaction, applied to State's draw counter (log 5). -/
opaque Config.linkAnswer : Nat → LinkAnswer

/-- What the output port of a register that holds ⊥ drives: an unconstrained value (R39; log 2). -/
opaque Config.unwrittenPort : Nat → Reg → Byte

/-- An LED of a row whose DIGIT register holds ⊥, in the normal configuration: a draw (R36, I8; log 2). -/
opaque Config.unwrittenLed : Nat → Fin 8 → Fin 8 → Bool

/-- `Level(⊥)`: unconstrained (R162; log 2). -/
opaque Config.unwrittenLevel : Nat → Nat

/-- `INTENSITY_LEVEL_HI` (R162, D16): the level shown for an INTENSITY byte above 0x0F (log 11). -/
opaque Config.intensityLevelHi : Byte → Nat

/-- The lit pattern of `DISPLAY_OTHER` (R38, D15): a function of the register file about which nothing is assumed (log 10). -/
opaque Config.displayOtherLit : RegFile → Fin 8 → Fin 8 → Bool

/-- The level of `DISPLAY_OTHER` (R38, D15; log 10). -/
opaque Config.displayOtherLevel : RegFile → Nat

/-- `T_PHASE` (R6, R251): the gap between SELFTEST phases in ms, not given (D18; log 12). -/
opaque Config.tPhase : Nat

end Sys2Proof
end

