-- ==== Sys2Proof/Syntax.lean ====
section
/-! DEFINITION. The instruction set (one constructor per row of spec/opcode_table.json), the request kinds, the host's steps and
the assembler lines of rule R82. -/

namespace Sys2Proof

/-- The 18 rows of the opcode table. A CMD16 command carries its `D` byte (R71, R104 to R117). A REQ19 request carries all
three fields `V`, `A`, `B` (R73), the ignored ones too (R76), so that no bit of a word is lost. -/
inductive Instr where
  | wrNoop (d : Byte)
  | wrDigit0 (d : Byte)
  | wrDigit1 (d : Byte)
  | wrDigit2 (d : Byte)
  | wrDigit3 (d : Byte)
  | wrDigit4 (d : Byte)
  | wrDigit5 (d : Byte)
  | wrDigit6 (d : Byte)
  | wrDigit7 (d : Byte)
  | wrDecodeMode (d : Byte)
  | wrIntensity (d : Byte)
  | wrScanLimit (d : Byte)
  | wrShutdown (d : Byte)
  | wrDisplayTest (d : Byte)
  /-- RAW (R103): `a` the address, `b` the data, `v` ignored. -/
  | raw (v : Bit) (a b : Byte)
  /-- PIXEL (R145): `v` the value, `x` the digit index, `y` the bit index. -/
  | pixel (v : Bit) (x y : Byte)
  /-- BRIGHTNESS (R160): `b` the intensity value, `v` and `a` ignored. -/
  | brightness (v : Bit) (a b : Byte)
  /-- The reserved request kind (R215): every field ignored. -/
  | reserved (v : Bit) (a b : Byte)
  deriving DecidableEq, Repr

/-- The request kinds `OP` selects (R74). -/
inductive ReqKind where
  | raw
  | pixel
  | brightness
  | reserved
  deriving DecidableEq, Repr

/-- An encoded instruction: a CMD16 frame or a REQ19 word. No other format exists (R70, R80). -/
inductive Encoded where
  | cmd16 (f : Frame)
  | req19 (w : ReqWord)
  deriving DecidableEq, Repr

/-- One step of the host (R33, R180, R243): boot step 1 of R243, a `DELAY` in ms (R181), a request word at M's request port
(R39), or a CMD16 frame at D's input (log 7). -/
inductive HostStep where
  | configureLink
  | delay (ms : Nat)
  | request (w : ReqWord)
  | frame (f : Frame)
  deriving DecidableEq, Repr

/-- The `<reg>` operand of `WR` (R82): a name of R21 or a numeric address. -/
inductive RegOperand where
  | name (n : RegName)
  | addr (a : Byte)
  deriving DecidableEq, Repr

/-- One assembler line (R82). -/
inductive Asm where
  | wr (r : RegOperand) (imm : Byte)
  | pixel (x y : Byte) (v : Bit)
  | bright (imm : Byte)
  | word (w : ReqWord)
  | delay (ms : Nat)
  deriving DecidableEq, Repr

end Sys2Proof
end

