-- ==== Sys2Proof/WellFormed.lean ====
section
/-! DEFINITION. Well-formedness. No instruction term is ill formed: both decoders are total (rule R81), every field has exactly its
width, and every field value is accepted (R75, R76, R142). What can be ill formed is a parameter set (R22, R100), and an
instruction can fail to be in the form an assembler writes (R76, R82). -/

namespace Sys2Proof

/-- `P_ADDR` is injective (R22, R100). -/
def PAddr.injective (p : PAddr) : Bool :=
  decide (RegName.all.map p.of).Nodup

/-- `DECODE_BITS` = 4 is admitted only when every `P_ADDR` value is below 0x10 (R100). -/
def Params.fitsDecodeBits (p : Params) : Bool :=
  match p.decodeBits with
  | .eight => true
  | .four => RegName.all.all fun n => (p.pAddr.of n).toNat < 16

/-- The admitted parameter sets. -/
def Params.wf (p : Params) : Bool :=
  p.pAddr.injective && p.fitsDecodeBits

/-- The form an assembler writes: 0 in every ignored field (R76, R82). A decoder accepts the other forms as well. -/
def Instr.assembled : Instr → Bool
  | .wrNoop _ => true
  | .wrDigit0 _ => true
  | .wrDigit1 _ => true
  | .wrDigit2 _ => true
  | .wrDigit3 _ => true
  | .wrDigit4 _ => true
  | .wrDigit5 _ => true
  | .wrDigit6 _ => true
  | .wrDigit7 _ => true
  | .wrDecodeMode _ => true
  | .wrIntensity _ => true
  | .wrScanLimit _ => true
  | .wrShutdown _ => true
  | .wrDisplayTest _ => true
  | .raw v _ _ => v == 0#1
  | .pixel _ _ _ => true
  | .brightness v a _ => v == 0#1 && a == 0#8
  | .reserved v a b => v == 0#1 && a == 0#8 && b == 0#8

end Sys2Proof
end

