-- ==== Sys2Proof/Decode.lean ====
section
/-! DEFINITION. The parameters' default values (rules R6, R22), the two decoders (R71 to R81, R100), the encoder, the assembler (R82)
and the wire order of a frame (R50). -/

namespace Sys2Proof

/-! ### Default parameters -/

/-- The default `P_ADDR` of R22 (D1, from general knowledge; log 3). -/
def PAddr.default : PAddr where
  noop := 0x00#8
  digit0 := 0x01#8
  digit1 := 0x02#8
  digit2 := 0x03#8
  digit3 := 0x04#8
  digit4 := 0x05#8
  digit5 := 0x06#8
  digit6 := 0x07#8
  digit7 := 0x08#8
  decodeMode := 0x09#8
  intensity := 0x0A#8
  scanLimit := 0x0B#8
  shutdown := 0x0C#8
  displayTest := 0x0F#8

/-- The default parameters: R22's addresses and a full-byte decode (R6, D2; log 4). -/
def Params.default : Params where
  pAddr := PAddr.default
  decodeBits := .eight

/-- The defaults with the admitted alternative `DECODE_BITS` = 4 (D2). -/
def Params.defaultFour : Params where
  pAddr := PAddr.default
  decodeBits := .four

/-! ### The fields of a frame and of a request word -/

/-- `{a, v}`: the frame of an address byte and a value byte (R50, R71). -/
def mkFrame (a v : Byte) : Frame := a ++ v

/-- `frame[15:8]` (R50). -/
def frameAddr (f : Frame) : Byte := f.extractLsb' 8 8

/-- `frame[7:0]` (R50). -/
def frameData (f : Frame) : Byte := f.extractLsb' 0 8

/-- `OP`, bits [18:17] (R73). -/
def reqOp (w : ReqWord) : BitVec 2 := w.extractLsb' 17 2

/-- `V`, bit [16] (R73). -/
def reqV (w : ReqWord) : Bit := w.extractLsb' 16 1

/-- `A`, bits [15:8] (R73). -/
def reqA (w : ReqWord) : Byte := w.extractLsb' 8 8

/-- `B`, bits [7:0] (R73). -/
def reqB (w : ReqWord) : Byte := w.extractLsb' 0 8

/-- `{OP, V, A, B}` (R73). -/
def mkReq (op : BitVec 2) (v : Bit) (a b : Byte) : ReqWord := op ++ (v ++ (a ++ b))

/-! ### The wire -/

/-- The bits of a byte, most significant first (R50). -/
def byteBits (v : Byte) : List Bool :=
  [7, 6, 5, 4, 3, 2, 1, 0].map fun k => v.getLsbD k

/-- The 16 bits of a frame in the order sent: the address byte first, each byte most significant bit first (R50). -/
def frameBits (f : Frame) : List Bool :=
  byteBits (frameAddr f) ++ byteBits (frameData f)

/-- Why a word is no instruction of the table. -/
inductive Reject where
  /-- The frame's address selects no register (R118). D changes nothing for it; it is no refusal of the machine. -/
  | noRegister (f : Frame)
  /-- No format has this many bits or bytes (R51, R70, R80). -/
  | badLength (n : Nat)
  /-- A bit above the format's width is set. -/
  | tooWide (w : Nat)
  deriving DecidableEq, Repr

/-- A frame from the bytes of one transaction: exactly two, address byte first (R50, R51). -/
def frameOfBytes : List Byte → Except Reject Frame
  | [a, v] => .ok (mkFrame a v)
  | bs => .error (.badLength bs.length)

/-! ### The decoders -/

/-- The address bits D compares, as a byte (R100). -/
def compareBits (p : Params) (a : Byte) : Byte :=
  match p.decodeBits with
  | .eight => a
  | .four => (a.extractLsb' 0 4).setWidth 8

/-- `Decode(a)` (R100): the name whose `P_ADDR` value matches the compared bits, or none. -/
def decodeAddr (p : Params) (a : Byte) : Option RegName :=
  RegName.all.find? fun n => p.pAddr.of n == compareBits p a

/-- The CMD16 command of a name (R77, R104 to R117). -/
def commandOf : RegName → Byte → Instr
  | .noop, d => .wrNoop d
  | .reg .digit0, d => .wrDigit0 d
  | .reg .digit1, d => .wrDigit1 d
  | .reg .digit2, d => .wrDigit2 d
  | .reg .digit3, d => .wrDigit3 d
  | .reg .digit4, d => .wrDigit4 d
  | .reg .digit5, d => .wrDigit5 d
  | .reg .digit6, d => .wrDigit6 d
  | .reg .digit7, d => .wrDigit7 d
  | .reg .decodeMode, d => .wrDecodeMode d
  | .reg .intensity, d => .wrIntensity d
  | .reg .scanLimit, d => .wrScanLimit d
  | .reg .shutdown, d => .wrShutdown d
  | .reg .displayTest, d => .wrDisplayTest d

/-- D's decoding of a frame: only the `A` field is decoded (R72). -/
def decodeFrame (p : Params) (f : Frame) : Except Reject Instr :=
  match decodeAddr p (frameAddr f) with
  | some n => .ok (commandOf n (frameData f))
  | none => .error (.noRegister f)

/-- The request kind `OP` selects (R74). -/
def opKind (op : BitVec 2) : ReqKind :=
  if op = 0b00#2 then .raw
  else if op = 0b01#2 then .pixel
  else if op = 0b10#2 then .brightness
  else .reserved

/-- The `OP` value of a request kind (R74). -/
def kindOp : ReqKind → BitVec 2
  | .raw => 0b00#2
  | .pixel => 0b01#2
  | .brightness => 0b10#2
  | .reserved => 0b11#2

/-- M's decoding of a request word, by `OP` alone; total (R74, R75, R81). -/
def decodeReq (w : ReqWord) : Instr :=
  match opKind (reqOp w) with
  | .raw => .raw (reqV w) (reqA w) (reqB w)
  | .pixel => .pixel (reqV w) (reqA w) (reqB w)
  | .brightness => .brightness (reqV w) (reqA w) (reqB w)
  | .reserved => .reserved (reqV w) (reqA w) (reqB w)

/-- The decoder of both formats. -/
def decode (p : Params) : Encoded → Except Reject Instr
  | .cmd16 f => decodeFrame p f
  | .req19 w => .ok (decodeReq w)

/-! ### The encoder -/

/-- The words of an instruction, from the formats of R71 and R73. -/
def encode (p : Params) : Instr → Encoded
  | .wrNoop d => .cmd16 (mkFrame (p.pAddr.of .noop) d)
  | .wrDigit0 d => .cmd16 (mkFrame (p.pAddr.of (.reg .digit0)) d)
  | .wrDigit1 d => .cmd16 (mkFrame (p.pAddr.of (.reg .digit1)) d)
  | .wrDigit2 d => .cmd16 (mkFrame (p.pAddr.of (.reg .digit2)) d)
  | .wrDigit3 d => .cmd16 (mkFrame (p.pAddr.of (.reg .digit3)) d)
  | .wrDigit4 d => .cmd16 (mkFrame (p.pAddr.of (.reg .digit4)) d)
  | .wrDigit5 d => .cmd16 (mkFrame (p.pAddr.of (.reg .digit5)) d)
  | .wrDigit6 d => .cmd16 (mkFrame (p.pAddr.of (.reg .digit6)) d)
  | .wrDigit7 d => .cmd16 (mkFrame (p.pAddr.of (.reg .digit7)) d)
  | .wrDecodeMode d => .cmd16 (mkFrame (p.pAddr.of (.reg .decodeMode)) d)
  | .wrIntensity d => .cmd16 (mkFrame (p.pAddr.of (.reg .intensity)) d)
  | .wrScanLimit d => .cmd16 (mkFrame (p.pAddr.of (.reg .scanLimit)) d)
  | .wrShutdown d => .cmd16 (mkFrame (p.pAddr.of (.reg .shutdown)) d)
  | .wrDisplayTest d => .cmd16 (mkFrame (p.pAddr.of (.reg .displayTest)) d)
  | .raw v a b => .req19 (mkReq (kindOp .raw) v a b)
  | .pixel v x y => .req19 (mkReq (kindOp .pixel) v x y)
  | .brightness v a b => .req19 (mkReq (kindOp .brightness) v a b)
  | .reserved v a b => .req19 (mkReq (kindOp .reserved) v a b)

/-! ### The assembler (R82) -/

/-- The address a `<reg>` operand stands for (R82). -/
def RegOperand.address (p : Params) : RegOperand → Byte
  | .name n => p.pAddr.of n
  | .addr a => a

/-- The host step an assembler line stands for; ignored fields are written 0 (R76, R82). -/
def assemble (p : Params) : Asm → HostStep
  | .wr r imm => .request (mkReq (kindOp .raw) 0#1 (r.address p) imm)
  | .pixel x y v => .request (mkReq (kindOp .pixel) v x y)
  | .bright imm => .request (mkReq (kindOp .brightness) 0#1 0#8 imm)
  | .word w => .request w
  | .delay ms => .delay ms

/-! ### Words numbered as the opcode table numbers them -/

/-- The encoded form of a word of the opcode table: a 16-bit row is a CMD16 frame; a 19-bit row, also when it is given in whole
bytes or whole 16-bit words, is a REQ19 word (R71, R73; log 14). -/
def encodedOfTableWord (nbits w : Nat) : Except Reject Encoded :=
  if nbits = 16 then
    if w < 2 ^ 16 then .ok (.cmd16 (BitVec.ofNat 16 w)) else .error (.tooWide w)
  else if nbits = 19 ∨ nbits = 24 ∨ nbits = 32 then
    if w < 2 ^ 19 then .ok (.req19 (BitVec.ofNat 19 w)) else .error (.tooWide w)
  else .error (.badLength nbits)

/-- The instruction the decoder reads from a table word, under the default parameters. -/
def decodeTableWord (nbits w : Nat) : Option Instr :=
  match encodedOfTableWord nbits w with
  | .ok e =>
    match decode Params.default e with
    | .ok i => some i
    | .error _ => none
  | .error _ => none

/-- The host step that presents an encoded word: a request at M's port, a frame at D's input. -/
def Encoded.hostStep : Encoded → HostStep
  | .cmd16 f => .frame f
  | .req19 w => .request w

end Sys2Proof
end

