-- ==== Sys2Proof/Machine/State.lean ====
section
/-! DEFINITION. The state of LMX: D's register file (rule R20), the ports of R39 that a step reads or writes, and the model's own
fields (parameters, link answers, draw counter, host boot progress). Plain data. -/

namespace Sys2Proof.Machine

/-- The response codes of R78. -/
inductive Resp where
  | ok
  | invalidCoordinate
  | transportError
  | reservedOp
  deriving DecidableEq, Repr

/-- How far the host's boot steps 1 and 2 of R243 have come: the link not configured yet, or configured and `waitedMs` ms of
`DELAY` issued since (log 9). -/
inductive LinkSetup where
  | unconfigured
  | configured (waitedMs : Nat)
  deriving DecidableEq, Repr

structure State where
  /-- `P_ADDR` and `DECODE_BITS` (R6, R22): the model's own field; no step changes it. -/
  params : Params
  /-- D's register file (R20). -/
  regs : RegFile
  /-- `resp_valid` and `resp` (R39, R78): the response of the most recent completed request; none before the first (R240). -/
  response : Option Resp
  /-- `frame` (R39): the frame M emitted for the most recent completed request, none if it was refused (log 8). -/
  emitted : Option Frame
  /-- Boot progress (R243; log 9). -/
  link : LinkSetup
  /-- Link answers the environment has fixed in advance, oldest first; when there are none the answer is a free value (R52; log 5). -/
  linkScript : List LinkAnswer
  /-- The draw counter the free values are applied to (log 5). -/
  draws : Nat
  /-- The host steps still to be issued, oldest first: the head is what `req_valid` and `req` present (R33, R39; log 6). -/
  pending : List HostStep
  deriving DecidableEq, Repr

/-- LMX stops with no fault: an error is a response (R210, R211), there is no trap (R217) and no request is fatal (R191). Nothing
raises one, so the type has no constructor (log 15). -/
inductive Fault where
  deriving DecidableEq, Repr

inductive Refusal where
  /-- Raised by `exec` for an instruction whose meaning is not written yet (no arm raises it now). Safe: the machine stops. -/
  | notModelled (mnemonic : String)
  /-- Raised by the step, not by a meaning, when a frame would be emitted before the settling delay has passed: the spec says that
  a model does not admit such a run (R243, premise SETTLED; I7 `refuse`). Safe: the machine stops where the hardware goes on. -/
  | notSettled
  deriving DecidableEq, Repr

/-- The register file at power-up: every register holds ⊥ (R240). -/
def RegFile.unwritten : RegFile where
  digit0 := none
  digit1 := none
  digit2 := none
  digit3 := none
  digit4 := none
  digit5 := none
  digit6 := none
  digit7 := none
  decodeMode := none
  intensity := none
  scanLimit := none
  shutdown := none
  displayTest := none

/-- Power-up (R240, R242): every register ⊥, no response, no frame in flight, no request pending. The parameters have the
defaults of R6 and R22; the other fields are the model's own (log 5, log 9). -/
def State.reset : State where
  params := Params.default
  regs := RegFile.unwritten
  response := none
  emitted := none
  link := .unconfigured
  linkScript := []
  draws := 0
  pending := []

end Sys2Proof.Machine
end

