-- ==== Sys2Proof/Machine/Flags.lean ====
section
/-! DEFINITION. LMX has no flag and no condition code (rule R34). A request's outcome is its response code: its encoding (R78) and how
the link's answer gives it (R52, R213). -/

namespace Sys2Proof.Machine

/-- `resp[1:0]` (R78). -/
def Resp.code : Resp → BitVec 2
  | .ok => 0b00#2
  | .invalidCoordinate => 0b01#2
  | .transportError => 0b10#2
  | .reservedOp => 0b11#2

/-- The response of a request whose frame the link answered so: `(r == OK) ? OK : TRANSPORT_ERROR` (R103, R145, R160). -/
def answerResp : LinkAnswer → Resp
  | .ok => .ok
  | .error _ => .transportError

/-- Whether D applied the frame (R52): always on OK, by the draw on TransportError. -/
def answerApplied : LinkAnswer → Bool
  | .ok => true
  | .error applied => applied

end Sys2Proof.Machine
end

