-- ==== Sys2Proof/Machine/Operands.lean ====
section
/-! DEFINITION. M's operand forms: the coordinate check, the pixel-to-address mapper and the two multiplexers that form a frame (rules
R140 to R144, R160). -/

namespace Sys2Proof.Machine

/-- `DIGITd` (R26). -/
def digitReg : Fin 8 → Reg
  | 0 => .digit0
  | 1 => .digit1
  | 2 => .digit2
  | 3 => .digit3
  | 4 => .digit4
  | 5 => .digit5
  | 6 => .digit6
  | 7 => .digit7

/-- The coordinate range check (R142): both fields below 8, unsigned. -/
def coordOk (x y : Byte) : Bool :=
  decide (x.toNat < 8) && decide (y.toNat < 8)

/-- `DigitAddr(x)` (R143): the address of DIGITx for x in 0..7, and no other case (R147). -/
def digitAddr (p : Params) (x : Byte) : Option Byte :=
  if h : x.toNat < 8 then some (p.pAddr.of (.reg (digitReg ⟨x.toNat, h⟩))) else none

/-- `RowByte(y, v)` (R144): `zext_8(v) << y[2:0]`. -/
def rowByte (y : Byte) (v : Bit) : Byte :=
  v.setWidth 8 <<< (y.extractLsb' 0 3).toNat

/-- M's address multiplexer (R140), with the coordinate check that guards its PIXEL input. -/
def selAddr (p : Params) (k : ReqKind) (a b : Byte) : Option Byte :=
  match k with
  | .raw => some a
  | .pixel => if coordOk a b then digitAddr p a else none
  | .brightness => some (p.pAddr.of (.reg .intensity))
  | .reserved => none

/-- M's data multiplexer, the row-write data path (R141). -/
def selData (k : ReqKind) (v : Bit) (b : Byte) : Option Byte :=
  match k with
  | .raw => some b
  | .pixel => some (rowByte b v)
  | .brightness => some b
  | .reserved => none

/-- The frame M forms for a request, none if the request is refused (R141, R211). -/
def formFrame (p : Params) (k : ReqKind) (v : Bit) (a b : Byte) : Option Frame :=
  match selAddr p k a b, selData k v b with
  | some addr, some data => some (mkFrame addr data)
  | _, _ => none

/-- The instructions that put a frame on the link: every CMD16 command is one, a request does if M forms one (R210). -/
def emitsFrame (p : Params) : Instr → Bool
  | .wrNoop _ => true
  | .wrDigit0 _ => true
  | .wrDigit1 _ => true
  | .wrDigit2 _ => true
  | .wrDigit3 _ => true
  | .wrDigit4 _ => true
  | .wrDigit5 _ => true
  | .wrDigit6 _ => true
  | .wrDigit7 _ => true
  | .wrDecodeMode _ => true
  | .wrIntensity _ => true
  | .wrScanLimit _ => true
  | .wrShutdown _ => true
  | .wrDisplayTest _ => true
  | .raw v a b => (formFrame p .raw v a b).isSome
  | .pixel v x y => (formFrame p .pixel v x y).isSome
  | .brightness v a b => (formFrame p .brightness v a b).isSome
  | .reserved v a b => (formFrame p .reserved v a b).isSome

end Sys2Proof.Machine
end

