-- ==== Sys2Proof/Machine/Ops.lean ====
section
/-! DEFINITION. The shared operations: reading and writing a register, applying a frame (rules R100 to R102), emitting one (R52), ending a
request with an error (R211), serving a request in the order of checks of R216, and the host's boot steps (R243). -/

namespace Sys2Proof.Machine

/-- `T_SETTLE` in ms (R6, R243). -/
def tSettle : Nat := 500

/-! ### The register file -/

/-- `Reg[r]` (R10): none is ⊥. -/
def readReg (r : Reg) (rf : RegFile) : Option Byte :=
  match r with
  | .digit0 => rf.digit0
  | .digit1 => rf.digit1
  | .digit2 => rf.digit2
  | .digit3 => rf.digit3
  | .digit4 => rf.digit4
  | .digit5 => rf.digit5
  | .digit6 => rf.digit6
  | .digit7 => rf.digit7
  | .decodeMode => rf.decodeMode
  | .intensity => rf.intensity
  | .scanLimit => rf.scanLimit
  | .shutdown => rf.shutdown
  | .displayTest => rf.displayTest

/-- `Reg[r] <- v` (R10): all 8 bits, unmasked (R26, R53, R101). -/
def writeReg (r : Reg) (v : Byte) (rf : RegFile) : RegFile :=
  match r with
  | .digit0 => { rf with digit0 := some v }
  | .digit1 => { rf with digit1 := some v }
  | .digit2 => { rf with digit2 := some v }
  | .digit3 => { rf with digit3 := some v }
  | .digit4 => { rf with digit4 := some v }
  | .digit5 => { rf with digit5 := some v }
  | .digit6 => { rf with digit6 := some v }
  | .digit7 => { rf with digit7 := some v }
  | .decodeMode => { rf with decodeMode := some v }
  | .intensity => { rf with intensity := some v }
  | .scanLimit => { rf with scanLimit := some v }
  | .shutdown => { rf with shutdown := some v }
  | .displayTest => { rf with displayTest := some v }

/-- `MemWrite(a, 1, v)`: D's whole effect for one applied frame (R101). NOOP and unmapped addresses write nothing. -/
def memWrite (p : Params) (a v : Byte) (rf : RegFile) : RegFile :=
  match decodeAddr p a with
  | some (.reg r) => writeReg r v rf
  | some .noop => rf
  | none => rf

/-- The write enable of storage register `r` for a frame with address `a` (R102). -/
def writeEnable (p : Params) (a : Byte) (r : Reg) : Bool :=
  decodeAddr p a == some (.reg r)

/-- D applies one frame (R52, R101). -/
def applyFrame (p : Params) (f : Frame) (rf : RegFile) : RegFile :=
  memWrite p (frameAddr f) (frameData f) rf

/-! ### State updates -/

/-- `Reg[r] <- v` on the state. -/
def State.write (r : Reg) (v : Byte) (s : State) : State :=
  { s with regs := writeReg r v s.regs }

/-- The link's answer to the next emitted frame (R52): the environment's, else a free value (log 5). -/
def State.linkAnswer (s : State) : LinkAnswer :=
  match s.linkScript with
  | answer :: _ => answer
  | [] => Config.linkAnswer s.draws

/-- `Emit(f)` and the response it gives (R52, R103, R145, R160): the link takes the frame and answers, D applies the frame if the
answer says so, M returns the response. -/
def State.emit (f : Frame) (s : State) : State :=
  { s with
    regs := if answerApplied s.linkAnswer then applyFrame s.params f s.regs else s.regs
    response := some (answerResp s.linkAnswer)
    emitted := some f
    linkScript := s.linkScript.tail
    draws := s.draws + 1 }

/-- `raise E` (R211): the response is `E`, no frame is emitted, no register changes, nothing else is recorded. This is LMX's whole
"exception entry" (R217); it has no return, and the next request is handled normally (R219). -/
def State.raise (e : Resp) (s : State) : State :=
  { s with response := some e, emitted := none }

/-- M serves one request, with the checks in the order of R216: reserved kind, coordinate check, emission. -/
def State.serve (k : ReqKind) (v : Bit) (a b : Byte) (s : State) : State :=
  if k = .reserved then s.raise .reservedOp
  else
    match formFrame s.params k v a b with
    | none => s.raise .invalidCoordinate
    | some f => s.emit f

/-! ### The host's side -/

/-- Premise SETTLED (R243): the link is configured and the host has waited `T_SETTLE` since. -/
def State.settled (s : State) : Bool :=
  match s.link with
  | .unconfigured => false
  | .configured waitedMs => decide (tSettle ≤ waitedMs)

/-- Boot step 1 of R243, outside the block: the link is configured, and the settling delay starts anew. -/
def State.configureLink (s : State) : State :=
  { s with link := .configured 0 }

/-- `DELAY ms` (R181): no effect on LMX; it counts toward the settling delay once the link is configured. -/
def State.wait (ms : Nat) (s : State) : State :=
  match s.link with
  | .unconfigured => s
  | .configured waitedMs => { s with link := .configured (waitedMs + ms) }

/-- The host's position moves past the step it issues (R33), and the draw counter moves on (log 5). -/
def State.advance (s : State) : State :=
  { s with pending := s.pending.tail, draws := s.draws + 1 }

/-- A frame whose address selects no register reaches D: no state changes and nothing reports it (R118, R218). -/
def State.ignoreFrame (_f : Frame) (s : State) : State := s

end Sys2Proof.Machine
end

