-- ==== Sys2Proof/Machine/Command.lean ====
section
/-! DEFINITION. The 14 CMD16 commands at D (rules R104 to R117). None has an exception at D; each changes at most its own register. -/

namespace Sys2Proof.Machine

/-- WR.NOOP (R104): decoded, changes nothing, whatever `D` is. -/
def execWrNoop (_d : Byte) (s : State) : Host.Outcome State Fault Refusal := .next s

/-- WR.DIGIT0 (R105): `Reg[DIGIT0] <- D`. -/
def execWrDigit0 (d : Byte) (s : State) : Host.Outcome State Fault Refusal := .next (s.write .digit0 d)

/-- WR.DIGIT1 (R106): `Reg[DIGIT1] <- D`. -/
def execWrDigit1 (d : Byte) (s : State) : Host.Outcome State Fault Refusal := .next (s.write .digit1 d)

/-- WR.DIGIT2 (R107): `Reg[DIGIT2] <- D`. -/
def execWrDigit2 (d : Byte) (s : State) : Host.Outcome State Fault Refusal := .next (s.write .digit2 d)

/-- WR.DIGIT3 (R108): `Reg[DIGIT3] <- D`. -/
def execWrDigit3 (d : Byte) (s : State) : Host.Outcome State Fault Refusal := .next (s.write .digit3 d)

/-- WR.DIGIT4 (R109): `Reg[DIGIT4] <- D`. -/
def execWrDigit4 (d : Byte) (s : State) : Host.Outcome State Fault Refusal := .next (s.write .digit4 d)

/-- WR.DIGIT5 (R110): `Reg[DIGIT5] <- D`. -/
def execWrDigit5 (d : Byte) (s : State) : Host.Outcome State Fault Refusal := .next (s.write .digit5 d)

/-- WR.DIGIT6 (R111): `Reg[DIGIT6] <- D`. -/
def execWrDigit6 (d : Byte) (s : State) : Host.Outcome State Fault Refusal := .next (s.write .digit6 d)

/-- WR.DIGIT7 (R112): `Reg[DIGIT7] <- D`. -/
def execWrDigit7 (d : Byte) (s : State) : Host.Outcome State Fault Refusal := .next (s.write .digit7 d)

/-- WR.DECODEMODE (R113): `Reg[DECODEMODE] <- D`, stored as written. -/
def execWrDecodeMode (d : Byte) (s : State) : Host.Outcome State Fault Refusal := .next (s.write .decodeMode d)

/-- WR.INTENSITY (R114): `Reg[INTENSITY] <- D`, unmasked. -/
def execWrIntensity (d : Byte) (s : State) : Host.Outcome State Fault Refusal := .next (s.write .intensity d)

/-- WR.SCANLIMIT (R115): `Reg[SCANLIMIT] <- D`, stored as written. -/
def execWrScanLimit (d : Byte) (s : State) : Host.Outcome State Fault Refusal := .next (s.write .scanLimit d)

/-- WR.SHUTDOWN (R116): `Reg[SHUTDOWN] <- D`, stored as written; every other register survives (R222). -/
def execWrShutdown (d : Byte) (s : State) : Host.Outcome State Fault Refusal := .next (s.write .shutdown d)

/-- WR.DISPLAYTEST (R117): `Reg[DISPLAYTEST] <- D`, stored as written. -/
def execWrDisplayTest (d : Byte) (s : State) : Host.Outcome State Fault Refusal := .next (s.write .displayTest d)

end Sys2Proof.Machine
end

