-- ==== Sys2Proof/Machine/Request.lean ====
section
/-! DEFINITION. The four REQ19 request kinds at M (rules R103, R145, R160, R215). Every one returns a response; none stops the machine. -/

namespace Sys2Proof.Machine

/-- RAW (R103): forward the frame `{A, B}`; `V` is ignored (R76) and `A` is not checked. -/
def execRaw (v : Bit) (a b : Byte) (s : State) : Host.Outcome State Fault Refusal :=
  .next (s.serve .raw v a b)

/-- PIXEL (R145): INVALID_COORDINATE if x or y is 8 or more, else emit `{DigitAddr(x), RowByte(y, V)}`. -/
def execPixel (v : Bit) (x y : Byte) (s : State) : Host.Outcome State Fault Refusal :=
  .next (s.serve .pixel v x y)

/-- BRIGHTNESS (R160): emit `{P_ADDR(INTENSITY), B}`; `V` and `A` are ignored (R76). -/
def execBrightness (v : Bit) (a b : Byte) (s : State) : Host.Outcome State Fault Refusal :=
  .next (s.serve .brightness v a b)

/-- The reserved request kind (R215): RESERVED_OP, whatever `V`, `A` and `B` hold; no frame, no register change. -/
def execReserved (v : Bit) (a b : Byte) (s : State) : Host.Outcome State Fault Refusal :=
  .next (s.serve .reserved v a b)

end Sys2Proof.Machine
end

