-- ==== Sys2Proof/Machine/Dispatch.lean ====
section
/-! DEFINITION. One arm per row of spec/opcode_table.json. -/

namespace Sys2Proof.Machine

def exec (i : Instr) (s : State) : Host.Outcome State Fault Refusal :=
  match i with
  | .wrNoop d => Sys2Proof.Machine.execWrNoop d s
  | .wrDigit0 d => Sys2Proof.Machine.execWrDigit0 d s
  | .wrDigit1 d => Sys2Proof.Machine.execWrDigit1 d s
  | .wrDigit2 d => Sys2Proof.Machine.execWrDigit2 d s
  | .wrDigit3 d => Sys2Proof.Machine.execWrDigit3 d s
  | .wrDigit4 d => Sys2Proof.Machine.execWrDigit4 d s
  | .wrDigit5 d => Sys2Proof.Machine.execWrDigit5 d s
  | .wrDigit6 d => Sys2Proof.Machine.execWrDigit6 d s
  | .wrDigit7 d => Sys2Proof.Machine.execWrDigit7 d s
  | .wrDecodeMode d => Sys2Proof.Machine.execWrDecodeMode d s
  | .wrIntensity d => Sys2Proof.Machine.execWrIntensity d s
  | .wrScanLimit d => Sys2Proof.Machine.execWrScanLimit d s
  | .wrShutdown d => Sys2Proof.Machine.execWrShutdown d s
  | .wrDisplayTest d => Sys2Proof.Machine.execWrDisplayTest d s
  | .raw v a b => Sys2Proof.Machine.execRaw v a b s
  | .pixel v x y => Sys2Proof.Machine.execPixel v x y s
  | .brightness v a b => Sys2Proof.Machine.execBrightness v a b s
  | .reserved v a b => Sys2Proof.Machine.execReserved v a b s

end Sys2Proof.Machine
end

