-- ==== Sys2Proof/Machine/HostStep.lean ====
section
/-! DEFINITION. What one host step does: a boot step, a delay, a request word at M or a frame at D (rules R55, R180, R181, R243). A run
that emits a frame before the settling delay is not admitted (R243, I7; log 9). -/

namespace Sys2Proof.Machine

/-- Whether a run may issue this instruction now: premise SETTLED, asked only where a frame is emitted (R243). -/
def State.admits (i : Instr) (s : State) : Bool :=
  s.settled || !(emitsFrame s.params i)

/-- Run a decoded instruction if the run admits it. -/
def runInstr (i : Instr) (s : State) : Host.Outcome State Fault Refusal :=
  if s.admits i then exec i s else .refused .notSettled

/-- One host step, run to completion (R55). A frame whose address selects no register is delivered too, and D ignores it (R118). -/
def runHostStep (h : HostStep) (s : State) : Host.Outcome State Fault Refusal :=
  match h with
  | .configureLink => .next s.configureLink
  | .delay ms => .next (s.wait ms)
  | .request w => runInstr (decodeReq w) s
  | .frame f =>
    match decodeFrame s.params f with
    | .ok i => runInstr i s
    | .error _ => if s.settled then .next (s.ignoreFrame f) else .refused .notSettled

/-- One machine step: the host step at the head of `pending` is consumed and run; with none presented the state stays as it is
(R55; log 6). -/
def stepState (s : State) : Host.Outcome State Fault Refusal :=
  match s.pending with
  | [] => .next s
  | h :: _ => runHostStep h s.advance

/-- `s` with the premise SETTLED met: as it is if it is met already, else the link configured and `T_SETTLE` waited. -/
def State.settle (s : State) : State :=
  if s.settled then s else { s with link := .configured tSettle }

/-- The host presents one more step, before the others. -/
def State.present (h : HostStep) (s : State) : State :=
  { s with pending := h :: s.pending }

/-- `s` with a table word presented as the next host step and the run admitted; `s` itself if no format has the word (log 6). -/
def State.withTableWord (s : State) (nbits w : Nat) : State :=
  match encodedOfTableWord nbits w with
  | .ok e => s.settle.present e.hostStep
  | .error _ => s

end Sys2Proof.Machine
end

