-- ==== Sys2Proof/Machine/Step.lean ====
section
/-! DEFINITION. One step of the machine (rule R55) and the loading of one instruction for the next step. -/

namespace Sys2Proof.Machine

/-- One step: the next host step, consumed and run to completion. -/
def step (s : State) : Host.Outcome State Fault Refusal := stepState s

/-- `s` with the instruction `w` of `nbits` bits presented as the next host step, so that `step` runs exactly it (log 6, log 9). -/
def State.withFetchWord (s : State) (nbits w : Nat) : State := s.withTableWord nbits w

end Sys2Proof.Machine
end

