-- ==== Sys2Proof/Machine/Display.lean ====
section
/-! DEFINITION. D's output ports (rule R39) and the display observation read from them (R35 to R38, R162). Readings of the state, not
extra state. -/

namespace Sys2Proof.Machine

/-- The normal configuration (R35). -/
def NormalConfig (rf : RegFile) : Bool :=
  rf.scanLimit == some 0x07#8 && rf.decodeMode == some 0x00#8 && rf.displayTest == some 0x00#8 && rf.shutdown == some 0x01#8

/-- The output port of a register (R39): its content, or an unconstrained value while it holds ⊥ (log 2). -/
def State.port (s : State) (r : Reg) : Byte :=
  match readReg r s.regs with
  | some v => v
  | none => Config.unwrittenPort s.draws r

/-- `resp_valid` (R39). -/
def State.respValid (s : State) : Bool := s.response.isSome

/-- `req_valid` (R39): a request is presented. -/
def State.reqValid (s : State) : Bool :=
  match s.pending with
  | .request _ :: _ => true
  | _ => false

/-- `req` (R39): the request word presented, if one is. -/
def State.reqPort (s : State) : Option ReqWord :=
  match s.pending with
  | .request w :: _ => some w
  | _ => none

/-- `resp` (R39, R78): the two response bits, while `resp_valid` is set. -/
def State.respPort (s : State) : Option (BitVec 2) := s.response.map Resp.code

/-- `Level(v)` (R162): 16 levels, and an open parameter above 0x0F. -/
def levelOf (v : Byte) : Nat :=
  if v.toNat ≤ 0x0F then v.toNat else Config.intensityLevelHi v

/-- `Lit(d, b)`: dark while SHUTDOWN holds ⊥ (R37), DIGITd's bit b in the normal configuration (R36), `DISPLAY_OTHER` in every
other case (R38). -/
def State.lit (s : State) (d b : Fin 8) : Bool :=
  if s.regs.shutdown = none then false
  else if NormalConfig s.regs then
    match readReg (digitReg d) s.regs with
    | some v => v.getLsbD b.val
    | none => Config.unwrittenLed s.draws d b
  else Config.displayOtherLit s.regs d b

/-- The brightness level shown: `Level(Reg[INTENSITY])` in the normal configuration (R36, R162), `DISPLAY_OTHER`'s otherwise (R38). -/
def State.level (s : State) : Nat :=
  if NormalConfig s.regs then
    match s.regs.intensity with
    | some v => levelOf v
    | none => Config.unwrittenLevel s.draws
  else Config.displayOtherLevel s.regs

end Sys2Proof.Machine
end

