-- ==== Sys2Proof/Machine/Sequences.lean ====
section
/-! DEFINITION. The host's pseudo-operations INIT, CLEAR and SELFTEST as lists of assembler lines (rules R83, R182, R184, R187 to R189),
and the host that issues a list and aggregates the responses (R180, R191). -/

namespace Sys2Proof.Machine

/-- The presets (R161). -/
def presetLow : Byte := 0x01#8
def presetMid : Byte := 0x07#8
def presetHigh : Byte := 0x0F#8

/-- `T_STEP` and `T_HOLD` in ms (R6, R251). -/
def tStep : Nat := 100
def tHold : Nat := 200

/-- `WR <name>, v`. -/
def wrLine (r : Reg) (v : Byte) : Asm := .wr (.name (.reg r)) v

/-- The digit indices in ascending order. -/
def digitIndices : List (Fin 8) := [0, 1, 2, 3, 4, 5, 6, 7]

/-- `WR DIGITd, v` for every row, ascending. -/
def wrAllRows (v : Byte) : List Asm := digitIndices.map fun d => wrLine (digitReg d) v

/-- CLEAR (R184). -/
def clearLines : List Asm := wrAllRows 0x00#8

/-- INIT (R182): the settling delay, the five control registers in order, then CLEAR. -/
def initLines : List Asm :=
  [.delay tSettle, wrLine .scanLimit 0x07#8, wrLine .decodeMode 0x00#8, wrLine .displayTest 0x00#8, wrLine .shutdown 0x01#8,
   wrLine .intensity 0x07#8] ++ clearLines

/-- One sweep step: `WR DIGITd, 1 << s` on the given rows, then `T_STEP` (R187, R188). -/
def sweepStep (rows : List (Fin 8)) (s : Fin 8) : List Asm :=
  (rows.map fun d => wrLine (digitReg d) (1#8 <<< s.val)) ++ [.delay tStep]

/-- A sweep phase: a brightness write, eight sweep steps, CLEAR, the phase gap (R187, R188). -/
def sweepPhase (level : Byte) (rows : List (Fin 8)) : List Asm :=
  [.bright level] ++ (digitIndices.map (sweepStep rows)).flatten ++ clearLines ++ [.delay Config.tPhase]

/-- SELFTEST phase 1: the even rows at LOW (R187). -/
def selfTestPhase1 : List Asm := sweepPhase presetLow [0, 2, 4, 6]

/-- SELFTEST phase 2: the odd rows at HIGH (R188). -/
def selfTestPhase2 : List Asm := sweepPhase presetHigh [1, 3, 5, 7]

/-- SELFTEST phase 3: every row lit, the brightness cycled, then CLEAR (R189). -/
def selfTestPhase3 : List Asm :=
  wrAllRows 0xFF#8 ++
  [.bright presetLow, .delay tHold, .bright presetMid, .delay tHold, .bright presetHigh, .delay tHold,
   .bright presetMid, .delay tHold, .bright presetLow, .delay tHold] ++ clearLines

/-- SELFTEST (R190). -/
def selfTestLines : List Asm := selfTestPhase1 ++ selfTestPhase2 ++ selfTestPhase3

/-- `setPixel(x, y, v)` and `setBrightness(v)`: one request each (R186). -/
def setPixelLines (x y : Byte) (v : Bit) : List Asm := [.pixel x y v]
def setBrightnessLines (v : Byte) : List Asm := [.bright v]

/-- What the host has observed of a list it issued: whether every response was OK (SUCCESS, R180), the requests it issued, their
responses in order, and the frames that went onto the link. Only `success` is the sequence's result (R180). -/
structure Report where
  success : Bool
  requests : Nat
  responses : List Resp
  frames : List Frame
  deriving DecidableEq, Repr

/-- Before the first step of a list. -/
def Report.start : Report where
  success := true
  requests := 0
  responses := []
  frames := []

/-- The report after a step that left the machine in `t`: only a request has a response (R180). -/
def Report.after (h : HostStep) (t : State) (r : Report) : Report :=
  match h with
  | .configureLink => r
  | .delay _ => r
  | .frame f => { r with frames := r.frames ++ [f] }
  | .request _ =>
    { success := r.success && (t.response == some .ok)
      requests := r.requests + 1
      responses := r.responses ++ t.response.toList
      frames := r.frames ++ t.emitted.toList }

/-- The result the host reports for a sequence (R180, R191). -/
inductive SequenceResult where
  | success
  | failure
  | configurationFailure
  deriving DecidableEq, Repr

/-- CLEAR and SELFTEST report SUCCESS or plain FAILURE (R180, R191). -/
def Report.result (r : Report) : SequenceResult := if r.success then .success else .failure

/-- INIT's FAILURE is reported as `ConfigurationFailure` (R183, R191). -/
def Report.initResult (r : Report) : SequenceResult := if r.success then .success else .configurationFailure

/-- The host issues the steps of a list in order, one at a time, whatever the responses are (R180). -/
def issue : List HostStep → State → Report → Host.Outcome (State × Report) Fault Refusal
  | [], s, r => .next (s, r)
  | h :: hs, s, r =>
    match step (s.present h) with
    | .next t => issue hs t (r.after h t)
    | .fault e => .fault e
    | .refused e => .refused e

/-- Issue assembler lines, assembled with the state's own parameters. -/
def issueLines (ls : List Asm) (s : State) : Host.Outcome (State × Report) Fault Refusal :=
  issue (ls.map (assemble s.params)) s Report.start

end Sys2Proof.Machine
end

