-- ==== Sys2Proof/Safety.lean ====
section
/-! DEFINITION. The terms the claims use: what a command, an emission and an error change and leave alone, the invariant every step keeps,
and which frame a host step puts on the link. -/

namespace Sys2Proof.Machine

/-! ### Frames of an effect -/

/-- Everything but the register file is as before. -/
structure SameBesideRegs (s t : State) : Prop where
  params : t.params = s.params
  response : t.response = s.response
  emitted : t.emitted = s.emitted
  link : t.link = s.link
  linkScript : t.linkScript = s.linkScript
  draws : t.draws = s.draws
  pending : t.pending = s.pending

/-- Register `r` holds exactly `v`, every other register and everything else is as before. -/
structure WroteOnly (r : Reg) (v : Byte) (s t : State) : Prop where
  value : readReg r t.regs = some v
  others : ∀ r', r' ≠ r → readReg r' t.regs = readReg r' s.regs
  rest : SameBesideRegs s t

/-- `raise e` (R211): the response is `e`, no frame was emitted, and everything else is as before. -/
structure RaisedOnly (e : Resp) (s t : State) : Prop where
  response : t.response = some e
  emitted : t.emitted = none
  regs : t.regs = s.regs
  params : t.params = s.params
  link : t.link = s.link
  linkScript : t.linkScript = s.linkScript
  draws : t.draws = s.draws
  pending : t.pending = s.pending

/-- The link took the frame `f` (R52): applied exactly once on OK; on TransportError applied exactly once or not at all, by the
draw. One link answer is used up, and everything else is as before. -/
structure LinkTook (f : Frame) (s t : State) : Prop where
  emitted : t.emitted = some f
  onOk : s.linkAnswer = .ok → t.response = some .ok ∧ t.regs = applyFrame s.params f s.regs
  onErrorApplied : s.linkAnswer = .error true → t.response = some .transportError ∧ t.regs = applyFrame s.params f s.regs
  onErrorDropped : s.linkAnswer = .error false → t.response = some .transportError ∧ t.regs = s.regs
  params : t.params = s.params
  link : t.link = s.link
  linkScript : t.linkScript = s.linkScript.tail
  draws : t.draws = s.draws + 1
  pending : t.pending = s.pending

/-! ### Invariant -/

/-- The response and the frame of the last request belong together: a frame went out exactly on OK and TRANSPORT_ERROR (R78, R210,
R211). -/
def State.OutputsAgree (s : State) : Bool :=
  match s.response with
  | none => s.emitted.isNone
  | some .ok => s.emitted.isSome
  | some .transportError => s.emitted.isSome
  | some .invalidCoordinate => s.emitted.isNone
  | some .reservedOp => s.emitted.isNone

/-- The invariant: the parameters are admitted ones (R22, R100) and the outputs agree (R78, R210). -/
def State.Inv (s : State) : Bool :=
  s.params.wf && s.OutputsAgree

/-! ### Host steps and the frames they put on the link -/

/-- The frame a host step puts on the link, if any. -/
def frameOfStep (p : Params) : HostStep → Option Frame
  | .configureLink => none
  | .delay _ => none
  | .request w => formFrame p (opKind (reqOp w)) (reqV w) (reqA w) (reqB w)
  | .frame f => some f

/-- Whether a host step asks the link for an answer: a request that forms a frame (R52). A frame presented at D asks none (log 7). -/
def asksLink (p : Params) : HostStep → Bool
  | .configureLink => false
  | .delay _ => false
  | .request w => (frameOfStep p (.request w)).isSome
  | .frame _ => false

/-- How many answers of the link a list of host steps uses up. -/
def answersNeeded (p : Params) (hs : List HostStep) : Nat := (hs.filter (asksLink p)).length

/-- Each host step of a list with the link answer it meets: the answers go in order to the steps that ask for one, and the others, whose
effect no answer decides, stand with OK. The list must hold enough answers (`answersNeeded`). -/
def meetAnswers (p : Params) : List HostStep → List LinkAnswer → List (HostStep × LinkAnswer)
  | [], _ => []
  | h :: hs, answers =>
    if asksLink p h then
      match answers with
      | a :: rest => (h, a) :: meetAnswers p hs rest
      | [] => []
    else (h, .ok) :: meetAnswers p hs answers

/-- The frames a list of host steps puts on the link, each with its answer, oldest first. -/
def answeredFrames (p : Params) (hs : List HostStep) (answers : List LinkAnswer) : List (Frame × LinkAnswer) :=
  (meetAnswers p hs answers).filterMap fun x => (frameOfStep p x.1).map fun f => (f, x.2)

/-- The response of a host step that is a request, by the checks of R216 in their order. -/
def responseDue : HostStep → LinkAnswer → Option Resp
  | .configureLink, _ => none
  | .delay _, _ => none
  | .frame _, _ => none
  | .request w, a =>
    some (if reqOp w = 0b11#2 then .reservedOp
      else if reqOp w = 0b01#2 ∧ ¬ ((reqA w).toNat < 8 ∧ (reqB w).toNat < 8) then .invalidCoordinate
      else if a = .ok then .ok
      else .transportError)

/-- The responses of a list of host steps, in order. -/
def responsesDue (p : Params) (hs : List HostStep) (answers : List LinkAnswer) : List Resp :=
  (meetAnswers p hs answers).filterMap fun x => responseDue x.1 x.2

/-- Whether a host step is a request. -/
def isRequest : HostStep → Bool
  | .configureLink => false
  | .delay _ => false
  | .request _ => true
  | .frame _ => false

/-- The last data byte that an applied frame wrote into `r`, among frames with their link answers, oldest first (R59). -/
def lastApplied (p : Params) (r : Reg) (fs : List (Frame × LinkAnswer)) : Option Byte :=
  ((fs.filter fun x => answerApplied x.2 && writeEnable p (frameAddr x.1) r).getLast?).map fun x => frameData x.1

/-- The 13 writes of INIT, in order (R182). -/
def initWrites : List (Reg × Byte) :=
  [(.scanLimit, 0x07#8), (.decodeMode, 0x00#8), (.displayTest, 0x00#8), (.shutdown, 0x01#8), (.intensity, 0x07#8),
   (.digit0, 0x00#8), (.digit1, 0x00#8), (.digit2, 0x00#8), (.digit3, 0x00#8),
   (.digit4, 0x00#8), (.digit5, 0x00#8), (.digit6, 0x00#8), (.digit7, 0x00#8)]

/-- The frame of one write under the given parameters. -/
def writeFrame (p : Params) (w : Reg × Byte) : Frame := mkFrame (p.pAddr.of (.reg w.1)) w.2

end Sys2Proof.Machine
end

