-- ==== Sys2Proof/Certificates/Slice0/Obligations.lean ====
section
/-! DEFINITION. The statements about LMX. Every one quantifies over the state, the parameters it carries (so over `P_ADDR` and both values
of `DECODE_BITS`) and the link's answers. -/

open Sys2Proof Sys2Proof.Machine

/-! ### Encoding -/

/-- R71, R73, R77: for every instruction and every admitted parameter set, decoding its encoding gives it back, with every operand. -/
def Obligations.DecodeOfEncodeIsTheInstruction : Prop :=
  ∀ p : Params, p.wf = true → ∀ i : Instr, decode p (encode p i) = .ok i

/-- R74, R75, R81 (the spec's derivation): `OP` alone selects the kind of a request word, the operands are its fields as they stand, and
encoding gives the same word back. -/
def Obligations.RequestWordsDecodeByOpAlone : Prop :=
  ∀ w : ReqWord,
    (reqOp w = 0b00#2 → decodeReq w = .raw (reqV w) (reqA w) (reqB w)) ∧
    (reqOp w = 0b01#2 → decodeReq w = .pixel (reqV w) (reqA w) (reqB w)) ∧
    (reqOp w = 0b10#2 → decodeReq w = .brightness (reqV w) (reqA w) (reqB w)) ∧
    (reqOp w = 0b11#2 → decodeReq w = .reserved (reqV w) (reqA w) (reqB w)) ∧
    ∀ p : Params, encode p (decodeReq w) = .req19 w

/-- R100 (decisions D1, D2; log 3, log 4): `Decode(a)` is the one name whose address equals the compared bits of `a`, and none exactly
when no name's does. -/
def Obligations.DecodeMatchesTheComparedBits : Prop :=
  ∀ p : Params, p.wf = true → ∀ a : Byte,
    (∀ n, decodeAddr p a = some n ↔
      p.pAddr.of n = (match p.decodeBits with | .eight => a | .four => (a.extractLsb' 0 4).setWidth 8)) ∧
    (decodeAddr p a = none ↔
      ∀ n, p.pAddr.of n ≠ (match p.decodeBits with | .eight => a | .four => (a.extractLsb' 0 4).setWidth 8)) ∧
    (∀ n m, decodeAddr p a = some n → decodeAddr p a = some m → n = m)

/-- R57 and the decode table of 95_test_vectors.md 2.1, for the default addresses (decisions D1, D2; log 3, log 4), every address byte. -/
def Obligations.DefaultAddressMap : Prop :=
  ∀ a : Byte,
    decodeAddr Params.default a =
      (if a = 0x00#8 then some .noop
       else if h : 0x01 ≤ a.toNat ∧ a.toNat ≤ 0x08 then some (.reg (digitReg ⟨a.toNat - 1, by omega⟩))
       else if a = 0x09#8 then some (.reg .decodeMode)
       else if a = 0x0A#8 then some (.reg .intensity)
       else if a = 0x0B#8 then some (.reg .scanLimit)
       else if a = 0x0C#8 then some (.reg .shutdown)
       else if a = 0x0F#8 then some (.reg .displayTest)
       else none) ∧
    decodeAddr Params.defaultFour a = decodeAddr Params.default (a &&& 0x0F#8)

/-- Words written out bit by bit from R71, R73 and the default addresses (log 3) decode to the instructions they stand for. -/
def Obligations.WrittenOutWordsDecode : Prop :=
  decodeTableWord 16 0b0000000010100101 = some (.wrNoop 0xA5#8) ∧
  decodeTableWord 16 0b0000010011111111 = some (.wrDigit3 0xFF#8) ∧
  decodeTableWord 16 0b0000101000000111 = some (.wrIntensity 0x07#8) ∧
  decodeTableWord 16 0b0000111100000000 = some (.wrDisplayTest 0x00#8) ∧
  decodeTableWord 24 0b0000000101100000111 = some (.raw 0#1 0x0B#8 0x07#8) ∧
  decodeTableWord 24 0b0110000001100000101 = some (.pixel 1#1 0x03#8 0x05#8) ∧
  decodeTableWord 24 0b1000000000000001111 = some (.brightness 0#1 0x00#8 0x0F#8) ∧
  decodeTableWord 24 0b1110000001100000101 = some (.reserved 1#1 0x03#8 0x05#8)

/-- R50 (the spec's derivation): the k-th bit sent of a frame is its bit 15 - k, and the first eight are the address byte's. -/
def Obligations.FrameIsSentAddressByteFirst : Prop :=
  ∀ f : Frame, (frameBits f).length = 16 ∧
    (∀ k < 16, (frameBits f)[k]? = some (f.getLsbD (15 - k))) ∧
    (frameBits f).take 8 = byteBits (frameAddr f) ∧ (frameBits f).drop 8 = byteBits (frameData f) ∧
    frameOfBytes [frameAddr f, frameData f] = .ok f

/-- R82 (decision D13): an assembler line stands for the request its mnemonic names, with 0 in every ignored field (R76). -/
def Obligations.AssembledLinesDecodeToTheirRequest : Prop :=
  ∀ p : Params,
    (∀ n v, ∃ w, assemble p (.wr (.name n) v) = .request w ∧ decodeReq w = .raw 0#1 (p.pAddr.of n) v) ∧
    (∀ a v, ∃ w, assemble p (.wr (.addr a) v) = .request w ∧ decodeReq w = .raw 0#1 a v) ∧
    (∀ x y v, ∃ w, assemble p (.pixel x y v) = .request w ∧ decodeReq w = .pixel v x y) ∧
    (∀ v, ∃ w, assemble p (.bright v) = .request w ∧ decodeReq w = .brightness 0#1 0#8 v) ∧
    (∀ w, assemble p (.word w) = .request w) ∧
    (∀ ms, assemble p (.delay ms) = .delay ms)

/-! ### The commands at D -/

/-- R104 (decision D4): WR.NOOP completes and changes nothing, for every data byte. -/
def Obligations.NoopCommandChangesNothing : Prop :=
  ∀ (d : Byte) (s : State), exec (.wrNoop d) s = .next s

/-- R105 to R112: each WR.DIGITn completes, its row register holds the whole data byte, and nothing else changes. -/
def Obligations.DigitCommandsWriteTheirRow : Prop :=
  ∀ (d : Byte) (s : State),
    (∃ t, exec (.wrDigit0 d) s = .next t ∧ WroteOnly .digit0 d s t) ∧
    (∃ t, exec (.wrDigit1 d) s = .next t ∧ WroteOnly .digit1 d s t) ∧
    (∃ t, exec (.wrDigit2 d) s = .next t ∧ WroteOnly .digit2 d s t) ∧
    (∃ t, exec (.wrDigit3 d) s = .next t ∧ WroteOnly .digit3 d s t) ∧
    (∃ t, exec (.wrDigit4 d) s = .next t ∧ WroteOnly .digit4 d s t) ∧
    (∃ t, exec (.wrDigit5 d) s = .next t ∧ WroteOnly .digit5 d s t) ∧
    (∃ t, exec (.wrDigit6 d) s = .next t ∧ WroteOnly .digit6 d s t) ∧
    (∃ t, exec (.wrDigit7 d) s = .next t ∧ WroteOnly .digit7 d s t)

/-- R113 to R117: each control command completes, its register holds the data byte unmasked, and nothing else changes. -/
def Obligations.ControlCommandsStoreTheByteUnmasked : Prop :=
  ∀ (d : Byte) (s : State),
    (∃ t, exec (.wrDecodeMode d) s = .next t ∧ WroteOnly .decodeMode d s t) ∧
    (∃ t, exec (.wrIntensity d) s = .next t ∧ WroteOnly .intensity d s t) ∧
    (∃ t, exec (.wrScanLimit d) s = .next t ∧ WroteOnly .scanLimit d s t) ∧
    (∃ t, exec (.wrShutdown d) s = .next t ∧ WroteOnly .shutdown d s t) ∧
    (∃ t, exec (.wrDisplayTest d) s = .next t ∧ WroteOnly .displayTest d s t)

/-- R101: `MemWrite(a, 1, v)` stores exactly `v` in the register the address selects and changes no other; for NOOP and for an address
that selects no register nothing changes. -/
def Obligations.MemWriteIsTheWholeEffectOfAFrame : Prop :=
  ∀ (p : Params) (a v : Byte) (rf : RegFile),
    (∀ r, decodeAddr p a = some (.reg r) →
      readReg r (memWrite p a v rf) = some v ∧ ∀ r', r' ≠ r → readReg r' (memWrite p a v rf) = readReg r' rf) ∧
    (decodeAddr p a = some .noop → memWrite p a v rf = rf) ∧
    (decodeAddr p a = none → memWrite p a v rf = rf) ∧
    ∀ f : Frame, applyFrame p f rf = memWrite p (frameAddr f) (frameData f) rf

/-- R102 (the spec's derivation): the write enables of one frame are one-hot, none is set for NOOP or no register, and a register takes
the frame's data byte exactly when its enable is set. -/
def Obligations.WriteEnablesAreOneHot : Prop :=
  ∀ (p : Params) (f : Frame) (rf : RegFile),
    (∀ r r', writeEnable p (frameAddr f) r = true → writeEnable p (frameAddr f) r' = true → r = r') ∧
    (decodeAddr p (frameAddr f) = some .noop ∨ decodeAddr p (frameAddr f) = none →
      ∀ r, writeEnable p (frameAddr f) r = false) ∧
    ∀ r, readReg r (applyFrame p f rf) = if writeEnable p (frameAddr f) r then some (frameData f) else readReg r rf

/-- R56 (the spec's derivation): applying a frame twice leaves what applying it once leaves, whatever the register file held. -/
def Obligations.ApplyingAFrameIsIdempotent : Prop :=
  ∀ (p : Params) (f : Frame) (rf : RegFile), applyFrame p f (applyFrame p f rf) = applyFrame p f rf

/-! ### The requests at M -/

/-- R103 (decision D6): RAW completes for every operand; M emits exactly the frame `{A, B}` unchecked and the link takes it. -/
def Obligations.RawForwardsItsFrame : Prop :=
  ∀ (v : Bit) (a b : Byte) (s : State),
    ∃ t, exec (.raw v a b) s = .next t ∧ LinkTook (mkFrame a b) s t

/-- R145: PIXEL with both coordinates in 0..7 completes; M emits exactly `{P_ADDR(DIGITx), RowByte(y, v)}` and the link takes it; when
D applies it, DIGITx holds the row byte and no other register changes. -/
def Obligations.PixelWritesOneRow : Prop :=
  ∀ (v : Bit) (x y : Byte) (s : State) (hx : x.toNat < 8), y.toNat < 8 →
    ∃ t, exec (.pixel v x y) s = .next t ∧
      LinkTook (mkFrame (s.params.pAddr.of (.reg (digitReg ⟨x.toNat, hx⟩))) (rowByte y v)) s t ∧
      (s.params.wf = true → answerApplied s.linkAnswer = true →
        readReg (digitReg ⟨x.toNat, hx⟩) t.regs = some (rowByte y v) ∧
        ∀ r, r ≠ digitReg ⟨x.toNat, hx⟩ → readReg r t.regs = readReg r s.regs)

/-- R160: BRIGHTNESS completes for every operand; M emits exactly `{P_ADDR(INTENSITY), B}` and the link takes it; when D applies it,
INTENSITY holds `B` unmasked and no other register changes. -/
def Obligations.BrightnessWritesIntensity : Prop :=
  ∀ (v : Bit) (a b : Byte) (s : State),
    ∃ t, exec (.brightness v a b) s = .next t ∧
      LinkTook (mkFrame (s.params.pAddr.of (.reg .intensity)) b) s t ∧
      (s.params.wf = true → answerApplied s.linkAnswer = true →
        readReg .intensity t.regs = some b ∧ ∀ r, r ≠ .intensity → readReg r t.regs = readReg r s.regs)

/-- R215 (decision D9): the reserved kind completes with RESERVED_OP for every field value; no frame, no register change. -/
def Obligations.ReservedKindAnswersReservedOp : Prop :=
  ∀ (v : Bit) (a b : Byte) (s : State),
    ∃ t, exec (.reserved v a b) s = .next t ∧ RaisedOnly .reservedOp s t

/-- R212: PIXEL raises INVALID_COORDINATE exactly when x or y is 8 or more, with no frame and no register change, and no other request
raises it. -/
def Obligations.OnlyPixelRaisesInvalidCoordinate : Prop :=
  ∀ (v : Bit) (a b : Byte) (s : State),
    (¬ (a.toNat < 8 ∧ b.toNat < 8) → ∃ t, exec (.pixel v a b) s = .next t ∧ RaisedOnly .invalidCoordinate s t) ∧
    (a.toNat < 8 ∧ b.toNat < 8 → ∃ t, exec (.pixel v a b) s = .next t ∧ t.response ≠ some .invalidCoordinate) ∧
    (∃ t, exec (.raw v a b) s = .next t ∧ t.response ≠ some .invalidCoordinate) ∧
    (∃ t, exec (.brightness v a b) s = .next t ∧ t.response ≠ some .invalidCoordinate) ∧
    (∃ t, exec (.reserved v a b) s = .next t ∧ t.response ≠ some .invalidCoordinate)

/-- R211 and R219 (the spec's derivation from R211 and R217): a request that raises an error sets the response, emits no frame, changes no
register and records nothing more, and the next request does what it would have done without the error. -/
def Obligations.RaisingRecordsOnlyTheResponse : Prop :=
  ∀ (w : ReqWord) (s t : State) (e : Resp),
    frameOfStep s.params (.request w) = none → exec (decodeReq w) s = .next t → t.response = some e →
    RaisedOnly e s t ∧ ∀ w' : ReqWord, exec (decodeReq w') t = exec (decodeReq w') s

/-- R216 (decision D9): the one response of a request follows the checks in order: reserved kind, coordinates, link. -/
def Obligations.ResponseFollowsTheCheckOrder : Prop :=
  ∀ (w : ReqWord) (s : State), ∃ t, exec (decodeReq w) s = .next t ∧
    (reqOp w = 0b11#2 → t.response = some .reservedOp) ∧
    (reqOp w = 0b01#2 ∧ ¬ ((reqA w).toNat < 8 ∧ (reqB w).toNat < 8) → t.response = some .invalidCoordinate) ∧
    (reqOp w ≠ 0b11#2 ∧ (reqOp w = 0b01#2 → (reqA w).toNat < 8 ∧ (reqB w).toNat < 8) →
      t.response = some (if s.linkAnswer = .ok then .ok else .transportError))

/-- R52, R213 (decision D10; log 5): for every request that forms a frame, all three link outcomes are admitted: applied with OK, applied
with TRANSPORT_ERROR, and not applied with TRANSPORT_ERROR. -/
def Obligations.EveryLinkOutcomeIsAdmitted : Prop :=
  ∀ (w : ReqWord) (f : Frame) (s : State) (more : List LinkAnswer),
    frameOfStep s.params (.request w) = some f →
    (∃ t, exec (decodeReq w) { s with linkScript := .ok :: more } = .next t ∧
      t.response = some .ok ∧ t.emitted = some f ∧ t.regs = applyFrame s.params f s.regs) ∧
    (∃ t, exec (decodeReq w) { s with linkScript := .error true :: more } = .next t ∧
      t.response = some .transportError ∧ t.emitted = some f ∧ t.regs = applyFrame s.params f s.regs) ∧
    (∃ t, exec (decodeReq w) { s with linkScript := .error false :: more } = .next t ∧
      t.response = some .transportError ∧ t.emitted = some f ∧ t.regs = s.regs)

/-- R76 (decision D19): fields that a kind ignores have no effect. -/
def Obligations.IgnoredFieldsHaveNoEffect : Prop :=
  ∀ (v v' : Bit) (a a' b b' : Byte) (s : State),
    exec (.raw v a b) s = exec (.raw v' a b) s ∧
    exec (.brightness v a b) s = exec (.brightness v' a' b) s ∧
    exec (.reserved v a b) s = exec (.reserved v' a' b') s

/-- R163 (the spec's derivation): RAW to INTENSITY's address has the effect and the response of BRIGHTNESS. -/
def Obligations.RawToIntensityIsBrightness : Prop :=
  ∀ (v v' : Bit) (a b : Byte) (s : State),
    exec (.raw v (s.params.pAddr.of (.reg .intensity)) b) s = exec (.brightness v' a b) s

/-- R103 with R104 to R118 (decision D6): what RAW does to the registers is what the CMD16 command its frame decodes to does, when D
applies the frame; nothing, when the address selects no register or D does not apply it. -/
def Obligations.RawActsAsTheDecodedCommand : Prop :=
  ∀ (v : Bit) (a b : Byte) (s t : State), exec (.raw v a b) s = .next t →
    (∀ i, decodeFrame s.params (mkFrame a b) = .ok i → answerApplied s.linkAnswer = true →
      ∃ u, exec i s = .next u ∧ t.regs = u.regs) ∧
    (∀ e, decodeFrame s.params (mkFrame a b) = .error e → t.regs = s.regs) ∧
    (answerApplied s.linkAnswer = false → t.regs = s.regs)

/-! ### The pixel mapper -/

/-- R144: for y in 0..7 the row byte has bit y equal to v and every other bit 0; it is `1 << y` or 0x00, and no bit is lost. -/
def Obligations.RowByteSetsOneBit : Prop :=
  ∀ (y : Byte) (v : Bit), y.toNat < 8 →
    (∀ k < 8, (rowByte y v).getLsbD k = (decide (k = y.toNat) && v.getLsbD 0)) ∧
    rowByte y 1#1 = 1#8 <<< y.toNat ∧ rowByte y 0#1 = 0x00#8 ∧
    (rowByte y v).toNat = v.toNat * 2 ^ y.toNat

/-- R147: the mapper answers for every x in range and for no other, and PIXEL with x out of range writes no register. -/
def Obligations.MapperHasNoFallback : Prop :=
  ∀ (p : Params) (x : Byte),
    (∀ h : x.toNat < 8, digitAddr p x = some (p.pAddr.of (.reg (digitReg ⟨x.toNat, h⟩)))) ∧
    (8 ≤ x.toNat → digitAddr p x = none ∧
      ∀ (v : Bit) (y : Byte) (s : State), ∃ t, exec (.pixel v x y) s = .next t ∧ t.emitted = none ∧ t.regs = s.regs)

/-- R146 (the spec's derivation): a completed PIXEL leaves only its own row byte in DIGITx, whatever the row held; of two on one x only
the second one's byte is left, and no other register has changed. -/
def Obligations.PixelIsDestructive : Prop :=
  ∀ (v v' : Bit) (x y y' : Byte) (s t u : State) (hx : x.toNat < 8), y.toNat < 8 → y'.toNat < 8 → s.params.wf = true →
    exec (.pixel v x y) s = .next t → t.response = some .ok →
    exec (.pixel v' x y') t = .next u → u.response = some .ok →
    readReg (digitReg ⟨x.toNat, hx⟩) t.regs = some (rowByte y v) ∧
    readReg (digitReg ⟨x.toNat, hx⟩) u.regs = some (rowByte y' v') ∧
    ∀ r, r ≠ digitReg ⟨x.toNat, hx⟩ → readReg r u.regs = readReg r s.regs

/-- R148 (the spec's derivation): with v = 1 distinct coordinates give distinct frames, with v = 0 the frame depends on x alone, and every
PIXEL frame selects a DIGIT register. -/
def Obligations.PixelFramesAreInjective : Prop :=
  ∀ p : Params, p.wf = true →
    (∀ (x y x' y' : Byte) (f : Frame),
      formFrame p .pixel 1#1 x y = some f → formFrame p .pixel 1#1 x' y' = some f → x = x' ∧ y = y') ∧
    (∀ x y y' : Byte, y.toNat < 8 → y'.toNat < 8 → formFrame p .pixel 0#1 x y = formFrame p .pixel 0#1 x y') ∧
    (∀ (v : Bit) (x y : Byte) (f : Frame), formFrame p .pixel v x y = some f →
      ∃ d : Fin 8, d.val = x.toNat ∧ decodeAddr p (frameAddr f) = some (.reg (digitReg d)))

/-! ### The whole machine -/

/-- R40: PIXEL reaches the DIGIT registers only, BRIGHTNESS reaches INTENSITY only, and RAW reaches every storage register. -/
def Obligations.RequestKindsReachTheirRegisters : Prop :=
  ∀ s : State, s.params.wf = true →
    (∀ (v : Bit) (x y : Byte) (t : State), exec (.pixel v x y) s = .next t →
      ∀ r, (∀ d, r ≠ digitReg d) → readReg r t.regs = readReg r s.regs) ∧
    (∀ (v : Bit) (a b : Byte) (t : State), exec (.brightness v a b) s = .next t →
      ∀ r, r ≠ .intensity → readReg r t.regs = readReg r s.regs) ∧
    (∀ (r : Reg) (v : Bit) (b : Byte), answerApplied s.linkAnswer = true →
      ∃ a t, exec (.raw v a b) s = .next t ∧ readReg r t.regs = some b)

/-- R53, R101: a step that answers a next state leaves every register as it was, but for the one the frame of the host step presented
selects, and that one is as it was or holds the frame's whole data byte; so no step changes two registers. -/
def Obligations.AStepWritesAtMostOneRegister : Prop :=
  ∀ s t : State, step s = .next t →
    (∀ r, readReg r t.regs = readReg r s.regs ∨
      ∃ h rest f, s.pending = h :: rest ∧ frameOfStep s.params h = some f ∧
        decodeAddr s.params (frameAddr f) = some (.reg r) ∧ readReg r t.regs = some (frameData f)) ∧
    ∀ r r', readReg r t.regs ≠ readReg r s.regs → readReg r' t.regs ≠ readReg r' s.regs → r = r'

/-- R25: no request reads a register and none returns one's value. Two machines that differ in register contents alone take the same step:
every output and everything but the registers agrees afterwards, and each register is untouched in both or holds the same byte in both. -/
def Obligations.NoRequestReadsARegister : Prop :=
  ∀ (s t : State) (rf : RegFile), step s = .next t →
    ∃ u, step { s with regs := rf } = .next u ∧
      { u with regs := t.regs } = t ∧
      ∀ r, (readReg r t.regs = readReg r s.regs ∧ readReg r u.regs = readReg r rf) ∨
        readReg r u.regs = readReg r t.regs

/-- R59, over runs of the model (log 5: link answers fixed in advance; log 6: the host's list; log 7: frames at D; log 9: settled runs):
for every list of host steps, requests of every kind, refused ones, delays and frames at D interleaved, and every choice of link answers.
A settled run that does not configure the link anew completes. At the end of a run of the list that completes, each register holds the data
byte of the last applied frame that selected it, and a register no applied frame selected keeps its content. -/
def Obligations.RegistersHoldTheLastAppliedByte : Prop :=
  ∀ (hs rest : List HostStep) (s : State),
    s.pending = hs ++ rest → answersNeeded s.params hs ≤ s.linkScript.length →
    (s.settled = true → (∀ h ∈ hs, h ≠ .configureLink) → ∃ t, Host.Core.run Sys2Proof.core hs.length s = .next t) ∧
    ∀ t, Host.Core.run Sys2Proof.core hs.length s = .next t →
      t.pending = rest ∧ t.linkScript = s.linkScript.drop (answersNeeded s.params hs) ∧
      ∀ r, readReg r t.regs =
        match lastApplied s.params r (answeredFrames s.params hs s.linkScript) with
        | some v => some v
        | none => readReg r s.regs

/-- A step runs the decoded instruction (log 6, log 9): when the host presents a request word and the run is admitted, step is exec of the
decoded instruction on the state whose first host step is consumed. -/
def Obligations.StepRunsTheRequestedInstruction : Prop :=
  ∀ (s : State) (w : ReqWord) (rest : List HostStep), s.pending = .request w :: rest →
    (s.settled = true ∨ frameOfStep s.params (.request w) = none) →
    step s = exec (decodeReq w) { s with pending := rest, draws := s.draws + 1 }

/-- A step runs the decoded instruction (log 6, log 7, log 9): when a frame is presented at D and the run is admitted, step is exec of the
command it decodes to; a frame whose address selects no register leaves everything but the host's position as it was (R118). -/
def Obligations.StepRunsTheDeliveredFrame : Prop :=
  ∀ (s : State) (f : Frame) (rest : List HostStep), s.pending = .frame f :: rest → s.settled = true →
    (∀ i, decodeFrame s.params f = .ok i → step s = exec i { s with pending := rest, draws := s.draws + 1 }) ∧
    (∀ e, decodeFrame s.params f = .error e → step s = .next { s with pending := rest, draws := s.draws + 1 })

/-- R181, R243 (log 6, log 9): a delay, the link configuration and an idle step complete and change no register and no output. -/
def Obligations.HostOnlyStepsChangeNoRegister : Prop :=
  ∀ s : State,
    (s.pending = [] → step s = .next s) ∧
    (∀ h rest, s.pending = h :: rest → (h = .configureLink ∨ ∃ ms, h = .delay ms) →
      ∃ t, step s = .next t ∧ t.regs = s.regs ∧ t.response = s.response ∧ t.emitted = s.emitted ∧ t.pending = rest ∧
        t.params = s.params ∧ t.linkScript = s.linkScript) ∧
    (∀ w ms rest, s.link = .configured w → s.pending = .delay ms :: rest → 500 ≤ w + ms →
      ∃ t, step s = .next t ∧ t.settled = true)

/-- R243 (decision D23; log 9): the step stops exactly where a frame would go out before the settling delay has passed, and for no other
reason. -/
def Obligations.OnlyAnUnsettledFrameIsNotAdmitted : Prop :=
  ∀ s : State,
    ((∃ t, step s = .next t) ∨ step s = .refused .notSettled) ∧
    (step s = .refused .notSettled ↔
      s.settled = false ∧ ∃ h rest f, s.pending = h :: rest ∧ frameOfStep s.params h = some f)

/-- The invariant is kept: for every state whose parameters are admitted and whose outputs agree, so are they after a step (R22, R78,
R210). -/
def Obligations.EveryStepKeepsTheInvariant : Prop :=
  ∀ s t : State, s.Inv = true → step s = .next t → t.Inv = true

/-- The invariant holds at power-up. -/
def Obligations.PowerUpMeetsTheInvariant : Prop :=
  State.reset.Inv = true

/-- R240 (decision D5): at power-up every storage register holds ⊥, there is no response, no frame and no pending request. -/
def Obligations.PowerUpLeavesEveryRegisterUnwritten : Prop :=
  (∀ r, readReg r State.reset.regs = none) ∧ State.reset.respValid = false ∧ State.reset.emitted = none ∧
  State.reset.reqValid = false ∧ State.reset.pending = []

/-! ### Ports and display -/

/-- R39, R248 (decisions D6, D14): after the step of a register command the register's output port drives the byte written, and the port of
every other register that has been written drives what it drove. The port of an unwritten register is unconstrained (R39; log 2). -/
def Obligations.PortsShowTheWrittenByte : Prop :=
  ∀ (r : Reg) (d : Byte) (s : State), ∃ t, exec (commandOf (.reg r) d) s = .next t ∧ t.port r = d ∧
    ∀ r', r' ≠ r → readReg r' s.regs ≠ none → t.port r' = s.port r'

/-- R35, R36: in the normal configuration LED (d, b) is lit exactly when bit b of DIGITd is 1, and the level is that of INTENSITY. The two
clauses on what is read from ⊥ are the model's choice (log 2): R36 calls it unconstrained, and the model takes the free value of the draw
counter. -/
def Obligations.NormalConfigurationShowsTheRows : Prop :=
  ∀ s : State,
    (NormalConfig s.regs = true ↔
      readReg .scanLimit s.regs = some 0x07#8 ∧ readReg .decodeMode s.regs = some 0x00#8 ∧
      readReg .displayTest s.regs = some 0x00#8 ∧ readReg .shutdown s.regs = some 0x01#8) ∧
    (NormalConfig s.regs = true →
      (∀ d b v, readReg (digitReg d) s.regs = some v → s.lit d b = v.getLsbD b.val) ∧
      (∀ d b, readReg (digitReg d) s.regs = none → s.lit d b = Config.unwrittenLed s.draws d b) ∧
      (∀ v, readReg .intensity s.regs = some v → s.level = levelOf v) ∧
      (readReg .intensity s.regs = none → s.level = Config.unwrittenLevel s.draws))

/-- R37, R241 (the spec's derivation): from a state whose SHUTDOWN register holds ⊥, no LED is lit after any run whose host steps put no
frame on the link that selects SHUTDOWN. -/
def Obligations.DarkUntilShutdownIsWritten : Prop :=
  ∀ (n : Nat) (s t : State), s.regs.shutdown = none →
    (∀ h ∈ s.pending, ∀ f, frameOfStep s.params h = some f → decodeAddr s.params (frameAddr f) ≠ some (.reg .shutdown)) →
    Host.Core.run Sys2Proof.core n s = .next t →
    ∀ d b, t.lit d b = false

/-- R38, R221 (decision D15; log 10): once SHUTDOWN has been written, outside the normal configuration the display is `DISPLAY_OTHER` of
the register file. -/
def Obligations.OtherConfigurationsShowDisplayOther : Prop :=
  ∀ s : State, readReg .shutdown s.regs ≠ none → NormalConfig s.regs = false →
    (∀ d b, s.lit d b = Config.displayOtherLit s.regs d b) ∧ s.level = Config.displayOtherLevel s.regs

/-- R162 (decision D16; log 11): the level of an INTENSITY byte up to 0x0F is the byte, above it the open parameter, and the presets are
ordered LOW < MID < HIGH. -/
def Obligations.LevelOfAnIntensityByte : Prop :=
  (∀ v : Byte, v.toNat ≤ 0x0F → levelOf v = v.toNat) ∧
  (∀ v : Byte, 0x10 ≤ v.toNat → levelOf v = Config.intensityLevelHi v) ∧
  levelOf presetLow = 1 ∧ levelOf presetMid = 7 ∧ levelOf presetHigh = 15

/-! ### The host's sequences -/

/-- R180, R182, R183, R244 (the spec's derivation; decision D17): INIT from any register contents, for every choice of the 13 link answers.
All 13 requests are issued and all 13 frames go out in order; the result is SUCCESS exactly when every answer was OK; each register holds
its INIT value, or its old content if its frame was not applied. With every answer OK the normal configuration holds, no LED is lit and the
level is 7. -/
def Obligations.InitEndsInTheNormalConfiguration : Prop :=
  ∀ (answers more : List LinkAnswer) (w : Nat) (s : State),
    s.params.wf = true → s.link = .configured w → answers.length = 13 → s.linkScript = answers ++ more →
    ∃ t rep, issueLines initLines s = .next (t, rep) ∧
      rep.requests = 13 ∧ rep.frames = initWrites.map (writeFrame s.params) ∧
      (rep.success = true ↔ ∀ a ∈ answers, a = .ok) ∧
      (∀ (k : Nat) (r : Reg) (v : Byte) (a : LinkAnswer), initWrites[k]? = some (r, v) → answers[k]? = some a →
        readReg r t.regs = if answerApplied a then some v else readReg r s.regs) ∧
      ((∀ a ∈ answers, a = .ok) → NormalConfig t.regs = true ∧ (∀ d b, t.lit d b = false) ∧ t.level = 7)

/-- R184, R185 (the spec's derivation): CLEAR with every answer OK emits its eight frames in ascending order, leaves every DIGIT register
0x00 and no control register changed; with some answer TransportError the result is FAILURE and all eight requests are issued. -/
def Obligations.ClearBlanksEveryRow : Prop :=
  ∀ (answers more : List LinkAnswer) (s : State),
    s.params.wf = true → s.settled = true → answers.length = 8 → s.linkScript = answers ++ more →
    ∃ t rep, issueLines clearLines s = .next (t, rep) ∧
      rep.requests = 8 ∧ rep.frames = digitIndices.map (fun d => writeFrame s.params (digitReg d, 0x00#8)) ∧
      (rep.success = true ↔ ∀ a ∈ answers, a = .ok) ∧
      (∀ (d : Fin 8) (a : LinkAnswer), answers[d.val]? = some a →
        readReg (digitReg d) t.regs = if answerApplied a then some 0x00#8 else readReg (digitReg d) s.regs) ∧
      (∀ r, (∀ d, r ≠ digitReg d) → readReg r t.regs = readReg r s.regs)

/-- R180, R190 (the spec's derivation; decision D18; log 12; link answers fixed in advance: log 5; settled run: log 9): SELFTEST for every
choice of the 103 link answers. It runs to the end whatever they are: 103 requests and 103 frames, 64 of them sweep, 8 full-on, 7 brightness
and 24 clear frames; SUCCESS exactly when every answer was OK; each register holds the data byte of the last applied frame that selected it, or
its old content. With every answer OK the DIGIT registers end 0x00 and INTENSITY 0x01; whatever the answers, the other control registers are
as before. -/
def Obligations.SelfTestIssues103Requests : Prop :=
  ∀ (answers more : List LinkAnswer) (s : State),
    s.params.wf = true → s.settled = true → answers.length = 103 → s.linkScript = answers ++ more →
    ∃ t rep, issueLines selfTestLines s = .next (t, rep) ∧
      rep.requests = 103 ∧ rep.frames.length = 103 ∧
      (rep.frames.filter fun f => decodeAddr s.params (frameAddr f) == some (.reg .intensity)).length = 7 ∧
      (rep.frames.filter fun f => frameData f == 0x00#8).length = 24 ∧
      (rep.frames.filter fun f => frameData f == 0xFF#8).length = 8 ∧
      (rep.frames.filter fun f => decodeAddr s.params (frameAddr f) != some (.reg .intensity) && frameData f != 0x00#8 &&
        frameData f != 0xFF#8).length = 64 ∧
      (rep.success = true ↔ ∀ a ∈ answers, a = .ok) ∧
      (∀ r, readReg r t.regs =
        match lastApplied s.params r (rep.frames.zip answers) with
        | some v => some v
        | none => readReg r s.regs) ∧
      ((∀ a ∈ answers, a = .ok) →
        (∀ d, readReg (digitReg d) t.regs = some 0x00#8) ∧ readReg .intensity t.regs = some 0x01#8) ∧
      readReg .scanLimit t.regs = readReg .scanLimit s.regs ∧ readReg .decodeMode t.regs = readReg .decodeMode s.regs ∧
      readReg .shutdown t.regs = readReg .shutdown s.regs ∧ readReg .displayTest t.regs = readReg .displayTest s.regs

/-- R180 (decision D17), in a settled run (log 9): the host issues every request of a list whatever the responses are, so the list completes
and has exactly one response for each of its requests. The result is SUCCESS exactly when every one of them was OK, and each is the one the
checks of R216 give: RESERVED_OP, INVALID_COORDINATE, or OK or TRANSPORT_ERROR by the link's answer (answers fixed in advance: log 5). -/
def Obligations.SequencesAreNeverCutShort : Prop :=
  ∀ (hs : List HostStep) (s : State) (rep : Report),
    s.settled = true → (∀ h ∈ hs, h ≠ .configureLink) →
    ∃ t rep' responses, issue hs s rep = .next (t, rep') ∧ t.pending = s.pending ∧
      rep'.responses = rep.responses ++ responses ∧
      responses.length = (hs.filter isRequest).length ∧
      rep'.requests = rep.requests + (hs.filter isRequest).length ∧
      (rep'.success = true ↔ rep.success = true ∧ ∀ e ∈ responses, e = .ok) ∧
      (answersNeeded s.params hs ≤ s.linkScript.length → responses = responsesDue s.params hs s.linkScript)

/-- R245 (decision D15) and program P6: with SHUTDOWN = 0x01 written first, every write is stored all the same and the normal configuration
holds at the end; after the first write, unless the other three registers already hold their normal values, the display is
`DISPLAY_OTHER`. -/
def Obligations.BringUpOrderIsNotEnforced : Prop :=
  ∀ (more : List LinkAnswer) (s : State),
    s.params.wf = true → s.settled = true → s.linkScript = .ok :: .ok :: .ok :: .ok :: more →
    (∃ t rep, issueLines [wrLine .shutdown 0x01#8] s = .next (t, rep) ∧ readReg .shutdown t.regs = some 0x01#8 ∧
      (NormalConfig t.regs = false → ∀ d b, t.lit d b = Config.displayOtherLit t.regs d b)) ∧
    (∃ t rep, issueLines [wrLine .shutdown 0x01#8, wrLine .scanLimit 0x07#8, wrLine .decodeMode 0x00#8,
        wrLine .displayTest 0x00#8] s = .next (t, rep) ∧
      NormalConfig t.regs = true ∧ ∀ d, readReg (digitReg d) t.regs = readReg (digitReg d) s.regs)

/-! ### The response port -/

/-- R78 (decision D20): the two response bits of every request, and none before the first request completes (R240). -/
def Obligations.ResponseBitsFollowTheTable : Prop :=
  State.reset.respPort = none ∧
  ∀ (w : ReqWord) (s : State), ∃ t, exec (decodeReq w) s = .next t ∧ t.respValid = true ∧
    (reqOp w = 0b11#2 → t.respPort = some 0b11#2) ∧
    (reqOp w = 0b01#2 → ¬ ((reqA w).toNat < 8 ∧ (reqB w).toNat < 8) → t.respPort = some 0b01#2) ∧
    (reqOp w ≠ 0b11#2 → (reqOp w = 0b01#2 → (reqA w).toNat < 8 ∧ (reqB w).toNat < 8) →
      t.respPort = some (if s.linkAnswer = .ok then 0b00#2 else 0b10#2))
end

