-- ==== Sys2Proof/Laws/Decode.lean ====
section
/-! SUPPORT. The fields of a formed frame and of a formed request word, and what the address decoder answers. -/

namespace Sys2Proof

@[simp] theorem frameAddr_mkFrame (a v : Byte) : frameAddr (mkFrame a v) = a := by
  simp only [frameAddr, mkFrame]
  ext i hi
  simp only [BitVec.getElem_extractLsb', BitVec.getLsbD_append]
  simp [show ¬ (8 + i < 8) by omega, BitVec.getLsbD_eq_getElem hi]

@[simp] theorem frameData_mkFrame (a v : Byte) : frameData (mkFrame a v) = v := by
  simp only [frameData, mkFrame]
  ext i hi
  simp only [BitVec.getElem_extractLsb', BitVec.getLsbD_append]
  simp [hi]

/-- A frame is its two bytes (R50). -/
@[simp] theorem mkFrame_fields (f : Frame) : mkFrame (frameAddr f) (frameData f) = f := by
  simp only [frameAddr, frameData, mkFrame]
  ext i hi
  simp only [BitVec.getElem_append, BitVec.getElem_extractLsb']
  split
  · simp [BitVec.getLsbD_eq_getElem hi]
  · rw [show 8 + (i - 8) = i by omega, BitVec.getLsbD_eq_getElem hi]

@[simp] theorem reqOp_mkReq (op : BitVec 2) (v : Bit) (a b : Byte) : reqOp (mkReq op v a b) = op := by
  simp only [reqOp, mkReq]
  ext i hi
  simp only [BitVec.getElem_extractLsb', BitVec.getLsbD_append]
  simp [show ¬ (17 + i < 1 + (8 + 8)) by omega, BitVec.getLsbD_eq_getElem hi]

@[simp] theorem reqV_mkReq (op : BitVec 2) (v : Bit) (a b : Byte) : reqV (mkReq op v a b) = v := by
  simp only [reqV, mkReq]
  ext i hi
  simp only [BitVec.getElem_extractLsb', BitVec.getLsbD_append]
  simp [show 16 + i < 1 + (8 + 8) by omega, show ¬ (16 + i < 8 + 8) by omega, BitVec.getLsbD_eq_getElem hi]

@[simp] theorem reqA_mkReq (op : BitVec 2) (v : Bit) (a b : Byte) : reqA (mkReq op v a b) = a := by
  simp only [reqA, mkReq]
  ext i hi
  simp only [BitVec.getElem_extractLsb', BitVec.getLsbD_append]
  simp [show 8 + i < 1 + (8 + 8) by omega, show 8 + i < 8 + 8 by omega, show ¬ (8 + i < 8) by omega,
    BitVec.getLsbD_eq_getElem hi]

@[simp] theorem reqB_mkReq (op : BitVec 2) (v : Bit) (a b : Byte) : reqB (mkReq op v a b) = b := by
  simp only [reqB, mkReq]
  ext i hi
  simp only [BitVec.getElem_extractLsb', BitVec.getLsbD_append]
  simp [show i < 1 + (8 + 8) by omega, show i < 8 + 8 by omega, hi]

/-- A request word is its four fields (R73). -/
@[simp] theorem mkReq_fields (w : ReqWord) : mkReq (reqOp w) (reqV w) (reqA w) (reqB w) = w := by
  simp only [reqOp, reqV, reqA, reqB, mkReq]
  ext i hi
  simp only [BitVec.getElem_append, BitVec.getElem_extractLsb']
  split
  · split
    · split
      · rw [show 0 + i = i by omega, BitVec.getLsbD_eq_getElem hi]
      · rw [show 8 + (i - 8) = i by omega, BitVec.getLsbD_eq_getElem hi]
    · rw [show 16 + (i - (8 + 8)) = i by omega, BitVec.getLsbD_eq_getElem hi]
  · rw [show 17 + (i - (1 + (8 + 8))) = i by omega, BitVec.getLsbD_eq_getElem hi]

@[simp] theorem opKind_kindOp (k : ReqKind) : opKind (kindOp k) = k := by
  cases k <;> rfl

@[simp] theorem kindOp_opKind (op : BitVec 2) : kindOp (opKind op) = op := by
  revert op; decide

/-! ### The address decoder -/

/-- Every name stands in the list the decoder searches (R21). -/
theorem RegName.mem_all (n : RegName) : n ∈ RegName.all := by
  cases n with
  | noop => simp [RegName.all]
  | reg r => cases r <;> simp [RegName.all]

/-- The parts of an admitted parameter set. -/
theorem Params.wf_parts {p : Params} (h : p.wf = true) : p.pAddr.injective = true ∧ p.fitsDecodeBits = true := by
  simpa [Params.wf] using h

/-- `P_ADDR` of an admitted parameter set is injective. -/
theorem Params.wf_inj {p : Params} (h : p.wf = true) {n m : RegName} (e : p.pAddr.of n = p.pAddr.of m) : n = m := by
  have hn : (RegName.all.map p.pAddr.of).Nodup := by simpa [PAddr.injective] using (p.wf_parts h).1
  exact List.inj_on_of_nodup_map hn (RegName.mem_all n) (RegName.mem_all m) e

/-- The compared bits of a name's own address are that address, under an admitted parameter set. -/
theorem Params.compareBits_of {p : Params} (h : p.wf = true) (n : RegName) :
    compareBits p (p.pAddr.of n) = p.pAddr.of n := by
  have hf := (p.wf_parts h).2
  unfold Params.fitsDecodeBits at hf
  unfold compareBits
  split
  · rfl
  · rename_i hb
    rw [hb] at hf
    have hlt : (p.pAddr.of n).toNat < 16 := by simpa using List.all_eq_true.mp hf n (RegName.mem_all n)
    apply BitVec.eq_of_toNat_eq
    simp only [BitVec.toNat_setWidth, BitVec.extractLsb'_toNat, Nat.shiftRight_zero]
    omega

/-- What the decoder finds matches the compared bits. -/
theorem decodeAddr_sound {p : Params} {a : Byte} {n : RegName} (h : decodeAddr p a = some n) :
    p.pAddr.of n = compareBits p a := by
  simpa using List.find?_some h

/-- Under an admitted parameter set the decoder finds the name whose address matches. -/
theorem decodeAddr_of_match {p : Params} (h : p.wf = true) {a : Byte} {n : RegName} (e : p.pAddr.of n = compareBits p a) :
    decodeAddr p a = some n := by
  cases hd : decodeAddr p a with
  | none =>
    have := List.find?_eq_none.mp hd n (RegName.mem_all n)
    simp [e] at this
  | some m => rw [p.wf_inj h (e.trans (decodeAddr_sound hd).symm)]

/-- A name's own address decodes to it (R22, R100). -/
theorem decodeAddr_pAddr {p : Params} (h : p.wf = true) (n : RegName) : decodeAddr p (p.pAddr.of n) = some n :=
  decodeAddr_of_match h (p.compareBits_of h n).symm

/-- A formed frame at a name's own address decodes to that name's command. -/
theorem decodeFrame_pAddr {p : Params} (h : p.wf = true) (n : RegName) (d : Byte) :
    decodeFrame p (mkFrame (p.pAddr.of n) d) = .ok (commandOf n d) := by
  simp [decodeFrame, decodeAddr_pAddr h]

/-- The default parameters are admitted ones, under both values of `DECODE_BITS` (R100). -/
@[simp] theorem Params.default_wf : Params.default.wf = true := by decide
@[simp] theorem Params.defaultFour_wf : Params.defaultFour.wf = true := by decide

end Sys2Proof
end

