-- ==== Sys2Proof/Laws/State.lean ====
section
/-! SUPPORT. One lemma per field of State per update, so that no later proof unfolds a record update; and reading a register after a
write. -/

namespace Sys2Proof.Machine

/-! ### `State.write` -/

@[simp] theorem State.write_params (r : Reg) (v : Byte) (s : State) : (s.write r v).params = s.params := rfl
@[simp] theorem State.write_regs (r : Reg) (v : Byte) (s : State) : (s.write r v).regs = writeReg r v s.regs := rfl
@[simp] theorem State.write_response (r : Reg) (v : Byte) (s : State) : (s.write r v).response = s.response := rfl
@[simp] theorem State.write_emitted (r : Reg) (v : Byte) (s : State) : (s.write r v).emitted = s.emitted := rfl
@[simp] theorem State.write_link (r : Reg) (v : Byte) (s : State) : (s.write r v).link = s.link := rfl
@[simp] theorem State.write_linkScript (r : Reg) (v : Byte) (s : State) : (s.write r v).linkScript = s.linkScript := rfl
@[simp] theorem State.write_draws (r : Reg) (v : Byte) (s : State) : (s.write r v).draws = s.draws := rfl
@[simp] theorem State.write_pending (r : Reg) (v : Byte) (s : State) : (s.write r v).pending = s.pending := rfl

/-! ### `State.emit` -/

@[simp] theorem State.emit_params (f : Frame) (s : State) : (s.emit f).params = s.params := rfl
@[simp] theorem State.emit_regs (f : Frame) (s : State) : (s.emit f).regs = (if answerApplied s.linkAnswer then applyFrame s.params f s.regs else s.regs) := rfl
@[simp] theorem State.emit_response (f : Frame) (s : State) : (s.emit f).response = some (answerResp s.linkAnswer) := rfl
@[simp] theorem State.emit_emitted (f : Frame) (s : State) : (s.emit f).emitted = some f := rfl
@[simp] theorem State.emit_link (f : Frame) (s : State) : (s.emit f).link = s.link := rfl
@[simp] theorem State.emit_linkScript (f : Frame) (s : State) : (s.emit f).linkScript = s.linkScript.tail := rfl
@[simp] theorem State.emit_draws (f : Frame) (s : State) : (s.emit f).draws = s.draws + 1 := rfl
@[simp] theorem State.emit_pending (f : Frame) (s : State) : (s.emit f).pending = s.pending := rfl

/-! ### `State.raise` -/

@[simp] theorem State.raise_params (e : Resp) (s : State) : (s.raise e).params = s.params := rfl
@[simp] theorem State.raise_regs (e : Resp) (s : State) : (s.raise e).regs = s.regs := rfl
@[simp] theorem State.raise_response (e : Resp) (s : State) : (s.raise e).response = some e := rfl
@[simp] theorem State.raise_emitted (e : Resp) (s : State) : (s.raise e).emitted = none := rfl
@[simp] theorem State.raise_link (e : Resp) (s : State) : (s.raise e).link = s.link := rfl
@[simp] theorem State.raise_linkScript (e : Resp) (s : State) : (s.raise e).linkScript = s.linkScript := rfl
@[simp] theorem State.raise_draws (e : Resp) (s : State) : (s.raise e).draws = s.draws := rfl
@[simp] theorem State.raise_pending (e : Resp) (s : State) : (s.raise e).pending = s.pending := rfl

/-! ### `State.configureLink` -/

@[simp] theorem State.configureLink_params (s : State) : (s.configureLink).params = s.params := rfl
@[simp] theorem State.configureLink_regs (s : State) : (s.configureLink).regs = s.regs := rfl
@[simp] theorem State.configureLink_response (s : State) : (s.configureLink).response = s.response := rfl
@[simp] theorem State.configureLink_emitted (s : State) : (s.configureLink).emitted = s.emitted := rfl
@[simp] theorem State.configureLink_link (s : State) : (s.configureLink).link = .configured 0 := rfl
@[simp] theorem State.configureLink_linkScript (s : State) : (s.configureLink).linkScript = s.linkScript := rfl
@[simp] theorem State.configureLink_draws (s : State) : (s.configureLink).draws = s.draws := rfl
@[simp] theorem State.configureLink_pending (s : State) : (s.configureLink).pending = s.pending := rfl

/-! ### `State.advance` -/

@[simp] theorem State.advance_params (s : State) : (s.advance).params = s.params := rfl
@[simp] theorem State.advance_regs (s : State) : (s.advance).regs = s.regs := rfl
@[simp] theorem State.advance_response (s : State) : (s.advance).response = s.response := rfl
@[simp] theorem State.advance_emitted (s : State) : (s.advance).emitted = s.emitted := rfl
@[simp] theorem State.advance_link (s : State) : (s.advance).link = s.link := rfl
@[simp] theorem State.advance_linkScript (s : State) : (s.advance).linkScript = s.linkScript := rfl
@[simp] theorem State.advance_draws (s : State) : (s.advance).draws = s.draws + 1 := rfl
@[simp] theorem State.advance_pending (s : State) : (s.advance).pending = s.pending.tail := rfl

/-! ### `State.present` -/

@[simp] theorem State.present_params (h : HostStep) (s : State) : (s.present h).params = s.params := rfl
@[simp] theorem State.present_regs (h : HostStep) (s : State) : (s.present h).regs = s.regs := rfl
@[simp] theorem State.present_response (h : HostStep) (s : State) : (s.present h).response = s.response := rfl
@[simp] theorem State.present_emitted (h : HostStep) (s : State) : (s.present h).emitted = s.emitted := rfl
@[simp] theorem State.present_link (h : HostStep) (s : State) : (s.present h).link = s.link := rfl
@[simp] theorem State.present_linkScript (h : HostStep) (s : State) : (s.present h).linkScript = s.linkScript := rfl
@[simp] theorem State.present_draws (h : HostStep) (s : State) : (s.present h).draws = s.draws := rfl
@[simp] theorem State.present_pending (h : HostStep) (s : State) : (s.present h).pending = h :: s.pending := rfl

/-! ### `State.wait` and `State.settle` change only `link` -/

@[simp] theorem State.wait_params (ms : Nat) (s : State) : (s.wait ms).params = s.params := by
  unfold State.wait; split <;> rfl
@[simp] theorem State.wait_regs (ms : Nat) (s : State) : (s.wait ms).regs = s.regs := by
  unfold State.wait; split <;> rfl
@[simp] theorem State.wait_response (ms : Nat) (s : State) : (s.wait ms).response = s.response := by
  unfold State.wait; split <;> rfl
@[simp] theorem State.wait_emitted (ms : Nat) (s : State) : (s.wait ms).emitted = s.emitted := by
  unfold State.wait; split <;> rfl
@[simp] theorem State.wait_linkScript (ms : Nat) (s : State) : (s.wait ms).linkScript = s.linkScript := by
  unfold State.wait; split <;> rfl
@[simp] theorem State.wait_draws (ms : Nat) (s : State) : (s.wait ms).draws = s.draws := by
  unfold State.wait; split <;> rfl
@[simp] theorem State.wait_pending (ms : Nat) (s : State) : (s.wait ms).pending = s.pending := by
  unfold State.wait; split <;> rfl

@[simp] theorem State.settle_params (s : State) : (s.settle).params = s.params := by
  unfold State.settle; split <;> rfl
@[simp] theorem State.settle_regs (s : State) : (s.settle).regs = s.regs := by
  unfold State.settle; split <;> rfl
@[simp] theorem State.settle_response (s : State) : (s.settle).response = s.response := by
  unfold State.settle; split <;> rfl
@[simp] theorem State.settle_emitted (s : State) : (s.settle).emitted = s.emitted := by
  unfold State.settle; split <;> rfl
@[simp] theorem State.settle_linkScript (s : State) : (s.settle).linkScript = s.linkScript := by
  unfold State.settle; split <;> rfl
@[simp] theorem State.settle_draws (s : State) : (s.settle).draws = s.draws := by
  unfold State.settle; split <;> rfl
@[simp] theorem State.settle_pending (s : State) : (s.settle).pending = s.pending := by
  unfold State.settle; split <;> rfl

@[simp] theorem State.ignoreFrame_eq (f : Frame) (s : State) : s.ignoreFrame f = s := rfl

/-- After `State.settle` the premise SETTLED is met. -/
@[simp] theorem State.settle_settled (s : State) : s.settle.settled = true := by
  unfold State.settle
  split
  · assumption
  · simp [State.settled]

/-- Waiting never undoes the premise SETTLED. -/
theorem State.wait_settled (ms : Nat) (s : State) (h : s.settled = true) : (s.wait ms).settled = true := by
  unfold State.wait
  split
  · exact h
  · rename_i w hw
    simp only [State.settled, hw, decide_eq_true_eq] at h ⊢
    omega

@[simp] theorem State.advance_settled (s : State) : s.advance.settled = s.settled := rfl
@[simp] theorem State.present_settled (h : HostStep) (s : State) : (s.present h).settled = s.settled := rfl
@[simp] theorem State.emit_settled (f : Frame) (s : State) : (s.emit f).settled = s.settled := rfl
@[simp] theorem State.raise_settled (e : Resp) (s : State) : (s.raise e).settled = s.settled := rfl
@[simp] theorem State.write_settled (r : Reg) (v : Byte) (s : State) : (s.write r v).settled = s.settled := rfl
@[simp] theorem State.present_advance_pending (h : HostStep) (s : State) : (s.present h).advance.pending = s.pending := rfl

/-! ### The link's next answer -/

/-- The environment's answer, when it has fixed one. -/
theorem State.linkAnswer_of_script {s : State} {answer : LinkAnswer} {rest : List LinkAnswer} (h : s.linkScript = answer :: rest) :
    s.linkAnswer = answer := by
  unfold State.linkAnswer; rw [h]

/-! ### The register file -/

/-- A register read after a write: the written value in its own cell, every other cell as before. -/
@[simp] theorem readReg_writeReg (r r' : Reg) (v : Byte) (rf : RegFile) :
    readReg r (writeReg r' v rf) = if r = r' then some v else readReg r rf := by
  cases r' <;> cases r <;> rfl

/-- Two register files with the same cells are equal. -/
theorem RegFile.ext_read {rf rf' : RegFile} (h : ∀ r, readReg r rf = readReg r rf') : rf = rf' := by
  obtain ⟨_, _, _, _, _, _, _, _, _, _, _, _, _⟩ := rf
  obtain ⟨_, _, _, _, _, _, _, _, _, _, _, _, _⟩ := rf'
  have h0 := h .digit0
  have h1 := h .digit1
  have h2 := h .digit2
  have h3 := h .digit3
  have h4 := h .digit4
  have h5 := h .digit5
  have h6 := h .digit6
  have h7 := h .digit7
  have h8 := h .decodeMode
  have h9 := h .intensity
  have h10 := h .scanLimit
  have h11 := h .shutdown
  have h12 := h .displayTest
  simp only [readReg] at *
  subst_vars
  rfl

/-- At power-up every cell is ⊥. -/
@[simp] theorem readReg_unwritten (r : Reg) : readReg r RegFile.unwritten = none := by
  cases r <;> rfl

end Sys2Proof.Machine
end

