-- ==== Sys2Proof/Laws/Ops.lean ====
section
/-! SUPPORT. One lemma per shared operation: what a frame does to the register file, which frame a request forms, what serving a request
does, and what an instruction can do at all. -/

namespace Sys2Proof.Machine

/-! ### Applying a frame -/

theorem memWrite_of_reg {p : Params} {a : Byte} {r : Reg} (h : decodeAddr p a = some (.reg r)) (v : Byte) (rf : RegFile) :
    memWrite p a v rf = writeReg r v rf := by
  simp [memWrite, h]

theorem memWrite_of_noop {p : Params} {a : Byte} (h : decodeAddr p a = some .noop) (v : Byte) (rf : RegFile) :
    memWrite p a v rf = rf := by
  simp [memWrite, h]

theorem memWrite_of_none {p : Params} {a : Byte} (h : decodeAddr p a = none) (v : Byte) (rf : RegFile) :
    memWrite p a v rf = rf := by
  simp [memWrite, h]

/-- A register read after a write to an address: the written value where the write enable is set, else as before. -/
theorem readReg_memWrite (p : Params) (a v : Byte) (rf : RegFile) (r : Reg) :
    readReg r (memWrite p a v rf) = if writeEnable p a r then some v else readReg r rf := by
  unfold memWrite writeEnable
  split
  · rename_i r' h
    by_cases e : r = r'
    · simp [h, e]
    · simp [h, e, Ne.symm e]
  · rename_i h
    simp [h]
  · rename_i h
    simp [h]

/-- A frame leaves the file as it is or writes its value byte into one register. -/
theorem applyFrame_cases (p : Params) (f : Frame) (rf : RegFile) :
    applyFrame p f rf = rf ∨
    ∃ r, decodeAddr p (frameAddr f) = some (.reg r) ∧ applyFrame p f rf = writeReg r (frameData f) rf := by
  unfold applyFrame memWrite
  split
  · rename_i r h
    exact .inr ⟨r, h, rfl⟩
  · exact .inl rfl
  · exact .inl rfl

/-- A frame at a storage register's own address writes that register. -/
theorem applyFrame_pAddr {p : Params} (h : p.wf = true) (r : Reg) (v : Byte) (rf : RegFile) :
    applyFrame p (mkFrame (p.pAddr.of (.reg r)) v) rf = writeReg r v rf := by
  unfold applyFrame
  rw [frameAddr_mkFrame, frameData_mkFrame, memWrite_of_reg (decodeAddr_pAddr h _)]

/-! ### The mapper -/

theorem digitReg_injective {d e : Fin 8} (h : digitReg d = digitReg e) : d = e := by
  revert d e; decide

theorem coordOk_iff (x y : Byte) : coordOk x y = true ↔ x.toNat < 8 ∧ y.toNat < 8 := by
  simp [coordOk]

theorem digitAddr_of_lt (p : Params) {x : Byte} (h : x.toNat < 8) :
    digitAddr p x = some (p.pAddr.of (.reg (digitReg ⟨x.toNat, h⟩))) := by
  simp [digitAddr, h]

/-! ### The frame a request forms -/

@[simp] theorem formFrame_raw (p : Params) (v : Bit) (a b : Byte) : formFrame p .raw v a b = some (mkFrame a b) := rfl

@[simp] theorem formFrame_brightness (p : Params) (v : Bit) (a b : Byte) :
    formFrame p .brightness v a b = some (mkFrame (p.pAddr.of (.reg .intensity)) b) := rfl

@[simp] theorem formFrame_reserved (p : Params) (v : Bit) (a b : Byte) : formFrame p .reserved v a b = none := rfl

theorem formFrame_pixel (p : Params) (v : Bit) {x y : Byte} (hx : x.toNat < 8) (hy : y.toNat < 8) :
    formFrame p .pixel v x y = some (mkFrame (p.pAddr.of (.reg (digitReg ⟨x.toNat, hx⟩))) (rowByte y v)) := by
  simp [formFrame, selAddr, selData, (coordOk_iff x y).mpr ⟨hx, hy⟩, digitAddr_of_lt p hx]

theorem formFrame_pixel_bad (p : Params) (v : Bit) {x y : Byte} (h : coordOk x y = false) :
    formFrame p .pixel v x y = none := by
  simp [formFrame, selAddr, h]

/-- The one way a PIXEL request forms a frame. -/
theorem formFrame_pixel_some {p : Params} {v : Bit} {x y : Byte} {f : Frame} (h : formFrame p .pixel v x y = some f) :
    ∃ hx : x.toNat < 8, y.toNat < 8 ∧ f = mkFrame (p.pAddr.of (.reg (digitReg ⟨x.toNat, hx⟩))) (rowByte y v) := by
  cases hc : coordOk x y with
  | false => rw [formFrame_pixel_bad p v hc] at h; cases h
  | true =>
    obtain ⟨hx, hy⟩ := (coordOk_iff _ _).mp hc
    rw [formFrame_pixel p v hx hy] at h
    exact ⟨hx, hy, (Option.some.inj h).symm⟩

/-! ### Serving a request -/

@[simp] theorem serve_raw (v : Bit) (a b : Byte) (s : State) : s.serve .raw v a b = s.emit (mkFrame a b) := rfl

@[simp] theorem serve_brightness (v : Bit) (a b : Byte) (s : State) :
    s.serve .brightness v a b = s.emit (mkFrame (s.params.pAddr.of (.reg .intensity)) b) := rfl

@[simp] theorem serve_reserved (v : Bit) (a b : Byte) (s : State) : s.serve .reserved v a b = s.raise .reservedOp := rfl

theorem serve_pixel (v : Bit) {x y : Byte} (s : State) (hx : x.toNat < 8) (hy : y.toNat < 8) :
    s.serve .pixel v x y = s.emit (mkFrame (s.params.pAddr.of (.reg (digitReg ⟨x.toNat, hx⟩))) (rowByte y v)) := by
  simp [State.serve, formFrame_pixel s.params v hx hy]

theorem serve_pixel_bad (v : Bit) {x y : Byte} (s : State) (h : coordOk x y = false) :
    s.serve .pixel v x y = s.raise .invalidCoordinate := by
  simp [State.serve, formFrame_pixel_bad s.params v h]

/-- All that serving a request can do: refuse it with one of M's two errors, or emit the frame it forms. -/
theorem serve_cases (k : ReqKind) (v : Bit) (a b : Byte) (s : State) :
    (k = .reserved ∧ s.serve k v a b = s.raise .reservedOp) ∨
    (k = .pixel ∧ coordOk a b = false ∧ s.serve k v a b = s.raise .invalidCoordinate) ∨
    ∃ f, formFrame s.params k v a b = some f ∧ s.serve k v a b = s.emit f := by
  cases k with
  | raw => exact .inr (.inr ⟨_, rfl, rfl⟩)
  | brightness => exact .inr (.inr ⟨_, rfl, rfl⟩)
  | reserved => exact .inl ⟨rfl, rfl⟩
  | pixel =>
    cases h : coordOk a b with
    | false => exact .inr (.inl ⟨rfl, rfl, serve_pixel_bad v s h⟩)
    | true =>
      obtain ⟨hx, hy⟩ := (coordOk_iff a b).mp h
      exact .inr (.inr ⟨_, formFrame_pixel s.params v hx hy, serve_pixel v s hx hy⟩)

/-- A request that forms a frame emits it. -/
theorem serve_of_frame {k : ReqKind} {v : Bit} {a b : Byte} {f : Frame} {s : State} (h : formFrame s.params k v a b = some f) :
    s.serve k v a b = s.emit f := by
  have hk : k ≠ .reserved := by rintro rfl; cases h
  simp [State.serve, hk, h]

/-- A request that forms no frame raises one of M's two errors. -/
theorem serve_of_no_frame {k : ReqKind} {v : Bit} {a b : Byte} {s : State} (h : formFrame s.params k v a b = none) :
    ∃ e, (e = .reservedOp ∨ e = .invalidCoordinate) ∧ s.serve k v a b = s.raise e := by
  obtain ⟨-, h'⟩ | ⟨-, -, h'⟩ | ⟨f, h', -⟩ := serve_cases k v a b s
  · exact ⟨_, .inl rfl, h'⟩
  · exact ⟨_, .inr rfl, h'⟩
  · rw [h] at h'; cases h'

/-- M serves every request word by its kind and its fields. -/
theorem exec_decodeReq (w : ReqWord) (s : State) :
    exec (decodeReq w) s = .next (s.serve (opKind (reqOp w)) (reqV w) (reqA w) (reqB w)) := by
  unfold decodeReq
  split <;> rename_i h <;> rw [h] <;> rfl

/-! ### Everything an instruction can do -/

/-- The result of an instruction: unchanged, one register written by a command at D, an error response, or an emitted frame. -/
inductive InstrEffect (s : State) : State → Prop where
  | unchanged : InstrEffect s s
  | wrote (r : Reg) (v : Byte) : InstrEffect s (s.write r v)
  | refused (e : Resp) (h : e = .reservedOp ∨ e = .invalidCoordinate) : InstrEffect s (s.raise e)
  | emitted (f : Frame) : InstrEffect s (s.emit f)

theorem serve_effect (k : ReqKind) (v : Bit) (a b : Byte) (s : State) : InstrEffect s (s.serve k v a b) := by
  obtain ⟨-, h⟩ | ⟨-, -, h⟩ | ⟨f, -, h⟩ := serve_cases k v a b s <;> rw [h]
  · exact .refused _ (.inl rfl)
  · exact .refused _ (.inr rfl)
  · exact .emitted f

/-- Every instruction answers a next state, and that state is one of the four results. -/
theorem exec_effect (i : Instr) (s : State) : ∃ t, exec i s = .next t ∧ InstrEffect s t := by
  cases i with
  | wrNoop d => exact ⟨_, rfl, .unchanged⟩
  | wrDigit0 d => exact ⟨_, rfl, .wrote _ _⟩
  | wrDigit1 d => exact ⟨_, rfl, .wrote _ _⟩
  | wrDigit2 d => exact ⟨_, rfl, .wrote _ _⟩
  | wrDigit3 d => exact ⟨_, rfl, .wrote _ _⟩
  | wrDigit4 d => exact ⟨_, rfl, .wrote _ _⟩
  | wrDigit5 d => exact ⟨_, rfl, .wrote _ _⟩
  | wrDigit6 d => exact ⟨_, rfl, .wrote _ _⟩
  | wrDigit7 d => exact ⟨_, rfl, .wrote _ _⟩
  | wrDecodeMode d => exact ⟨_, rfl, .wrote _ _⟩
  | wrIntensity d => exact ⟨_, rfl, .wrote _ _⟩
  | wrScanLimit d => exact ⟨_, rfl, .wrote _ _⟩
  | wrShutdown d => exact ⟨_, rfl, .wrote _ _⟩
  | wrDisplayTest d => exact ⟨_, rfl, .wrote _ _⟩
  | raw v a b => exact ⟨_, rfl, serve_effect _ _ _ _ _⟩
  | pixel v x y => exact ⟨_, rfl, serve_effect _ _ _ _ _⟩
  | brightness v a b => exact ⟨_, rfl, serve_effect _ _ _ _ _⟩
  | reserved v a b => exact ⟨_, rfl, serve_effect _ _ _ _ _⟩

/-- The command of a name writes that name's register. -/
theorem exec_commandOf_reg (r : Reg) (d : Byte) (s : State) : exec (commandOf (.reg r) d) s = .next (s.write r d) := by
  cases r <;> rfl

theorem exec_commandOf_noop (d : Byte) (s : State) : exec (commandOf .noop d) s = .next s := rfl

/-- The command a frame decodes to does what applying the frame does, and nothing else. -/
theorem exec_decodeFrame {p : Params} {f : Frame} {i : Instr} {s : State} (h : decodeFrame p f = .ok i) :
    exec i s = .next { s with regs := applyFrame p f s.regs } := by
  unfold decodeFrame at h
  split at h
  · rename_i n hn
    cases h
    cases n with
    | noop => rw [exec_commandOf_noop, applyFrame, memWrite_of_noop hn]
    | reg r => rw [exec_commandOf_reg, applyFrame, memWrite_of_reg hn]; rfl
  · cases h

/-- A frame that decodes to no command changes no register when it is applied (R118). -/
theorem applyFrame_of_undecoded {p : Params} {f : Frame} {e : Reject} (h : decodeFrame p f = .error e) (rf : RegFile) :
    applyFrame p f rf = rf := by
  unfold decodeFrame at h
  split at h
  · cases h
  · rename_i hn
    rw [applyFrame, memWrite_of_none hn]

/-! ### Everything a step can do -/

/-- Running an admitted instruction is running it. -/
theorem runInstr_of_admits {i : Instr} {s : State} (h : s.admits i = true) : runInstr i s = exec i s := by
  simp [runInstr, h]

theorem admits_of_settled (i : Instr) {s : State} (h : s.settled = true) : s.admits i = true := by
  simp [State.admits, h]

/-- The result of a step that answers a next state: idle, a boot step, a delay, or an instruction's result (a frame that D ignores
among them) on the state whose first host step is consumed. -/
inductive StepEffect (s : State) : State → Prop where
  | idle (h : s.pending = []) : StepEffect s s
  | configured : StepEffect s s.advance.configureLink
  | waited (ms : Nat) : StepEffect s (s.advance.wait ms)
  | ran (t : State) (h : InstrEffect s.advance t) : StepEffect s t

theorem runInstr_effect {i : Instr} {s t : State} (h : runInstr i s = .next t) : exec i s = .next t ∧ InstrEffect s t := by
  unfold runInstr at h
  split at h
  · obtain ⟨u, hu, he⟩ := exec_effect i s
    rw [hu] at h
    cases h
    exact ⟨hu, he⟩
  · cases h

theorem step_effect {s t : State} (h : step s = .next t) : StepEffect s t := by
  unfold step stepState at h
  split at h
  · cases h
    exact .idle (by assumption)
  · unfold runHostStep at h
    split at h
    · cases h
      exact .configured
    · cases h
      exact .waited _
    · exact .ran _ (runInstr_effect h).2
    · split at h
      · exact .ran _ (runInstr_effect h).2
      · split at h
        · cases h
          exact .ran _ .unchanged
        · cases h

/-- A step whose head is the given host step runs it on the advanced state. -/
theorem step_of_head {s : State} {h : HostStep} {rest : List HostStep} (e : s.pending = h :: rest) :
    step s = runHostStep h s.advance := by
  simp [step, stepState, e]

/-- A request word is admitted when the run is settled or the word forms no frame. -/
theorem admits_decodeReq (w : ReqWord) (s : State) :
    s.admits (decodeReq w) = (s.settled || !(formFrame s.params (opKind (reqOp w)) (reqV w) (reqA w) (reqB w)).isSome) := by
  unfold State.admits decodeReq
  split <;> rename_i h <;> rw [h] <;> rfl

/-- A command is admitted exactly when the run is settled: its frame is on the link. -/
theorem admits_commandOf (n : RegName) (d : Byte) (s : State) : s.admits (commandOf n d) = s.settled := by
  cases n with
  | noop => simp [State.admits, commandOf, emitsFrame]
  | reg r => cases r <;> simp [State.admits, commandOf, emitsFrame]

/-- Presenting a request word in a settled run and taking a step serves it, and nothing else is consumed. -/
theorem step_present_request {s : State} (h : s.settled = true) (w : ReqWord) :
    step (s.present (.request w)) =
      .next ((s.present (.request w)).advance.serve (opKind (reqOp w)) (reqV w) (reqA w) (reqB w)) := by
  rw [step_of_head (rest := s.pending) rfl]
  have hs : (s.present (.request w)).advance.settled = true := h
  exact (runInstr_of_admits (admits_of_settled _ hs)).trans (exec_decodeReq w _)

/-- No step changes the parameters. -/
theorem step_params {s t : State} (h : step s = .next t) : t.params = s.params := by
  cases step_effect h with
  | idle => rfl
  | configured => rfl
  | waited ms => simp
  | ran _ he => cases he <;> rfl

end Sys2Proof.Machine
end

