-- ==== Sys2Proof/Laws/PerInstr.lean ====
section
/-! SUPPORT. A fact about every instruction as syntax, one lemma per constructor: the fixed field of its encoded word is the one its row of
spec/opcode_table.json fixes (rules R71, R77). -/

namespace Sys2Proof.Laws.RowSelect

/-- The field a row of the table fixes: `A` of a CMD16 frame, `OP` of a REQ19 word. -/
def selector : Encoded → Nat
  | .cmd16 f => (frameAddr f).toNat
  | .req19 w => (reqOp w).toNat

/-- The value the instruction's row fixes there (the table's "fixed"). -/
def rowValue : Instr → Nat
  | .wrNoop _ => 0
  | .wrDigit0 _ => 1
  | .wrDigit1 _ => 2
  | .wrDigit2 _ => 3
  | .wrDigit3 _ => 4
  | .wrDigit4 _ => 5
  | .wrDigit5 _ => 6
  | .wrDigit6 _ => 7
  | .wrDigit7 _ => 8
  | .wrDecodeMode _ => 9
  | .wrIntensity _ => 10
  | .wrScanLimit _ => 11
  | .wrShutdown _ => 12
  | .wrDisplayTest _ => 15
  | .raw _ _ _ => 0
  | .pixel _ _ _ => 1
  | .brightness _ _ _ => 2
  | .reserved _ _ _ => 3

def Statement (i : Instr) : Prop := selector (encode Params.default i) = rowValue i

theorem wrNoop (d : Byte) : Statement (.wrNoop d) := by
  simp [Statement, selector, rowValue, encode, Params.default, PAddr.default, PAddr.of]
theorem wrDigit0 (d : Byte) : Statement (.wrDigit0 d) := by
  simp [Statement, selector, rowValue, encode, Params.default, PAddr.default, PAddr.of]
theorem wrDigit1 (d : Byte) : Statement (.wrDigit1 d) := by
  simp [Statement, selector, rowValue, encode, Params.default, PAddr.default, PAddr.of]
theorem wrDigit2 (d : Byte) : Statement (.wrDigit2 d) := by
  simp [Statement, selector, rowValue, encode, Params.default, PAddr.default, PAddr.of]
theorem wrDigit3 (d : Byte) : Statement (.wrDigit3 d) := by
  simp [Statement, selector, rowValue, encode, Params.default, PAddr.default, PAddr.of]
theorem wrDigit4 (d : Byte) : Statement (.wrDigit4 d) := by
  simp [Statement, selector, rowValue, encode, Params.default, PAddr.default, PAddr.of]
theorem wrDigit5 (d : Byte) : Statement (.wrDigit5 d) := by
  simp [Statement, selector, rowValue, encode, Params.default, PAddr.default, PAddr.of]
theorem wrDigit6 (d : Byte) : Statement (.wrDigit6 d) := by
  simp [Statement, selector, rowValue, encode, Params.default, PAddr.default, PAddr.of]
theorem wrDigit7 (d : Byte) : Statement (.wrDigit7 d) := by
  simp [Statement, selector, rowValue, encode, Params.default, PAddr.default, PAddr.of]
theorem wrDecodeMode (d : Byte) : Statement (.wrDecodeMode d) := by
  simp [Statement, selector, rowValue, encode, Params.default, PAddr.default, PAddr.of]
theorem wrIntensity (d : Byte) : Statement (.wrIntensity d) := by
  simp [Statement, selector, rowValue, encode, Params.default, PAddr.default, PAddr.of]
theorem wrScanLimit (d : Byte) : Statement (.wrScanLimit d) := by
  simp [Statement, selector, rowValue, encode, Params.default, PAddr.default, PAddr.of]
theorem wrShutdown (d : Byte) : Statement (.wrShutdown d) := by
  simp [Statement, selector, rowValue, encode, Params.default, PAddr.default, PAddr.of]
theorem wrDisplayTest (d : Byte) : Statement (.wrDisplayTest d) := by
  simp [Statement, selector, rowValue, encode, Params.default, PAddr.default, PAddr.of]
theorem raw (v : Bit) (a b : Byte) : Statement (.raw v a b) := by
  simp [Statement, selector, rowValue, encode, kindOp]
theorem pixel (v : Bit) (x y : Byte) : Statement (.pixel v x y) := by
  simp [Statement, selector, rowValue, encode, kindOp]
theorem brightness (v : Bit) (a b : Byte) : Statement (.brightness v a b) := by
  simp [Statement, selector, rowValue, encode, kindOp]
theorem reserved (v : Bit) (a b : Byte) : Statement (.reserved v a b) := by
  simp [Statement, selector, rowValue, encode, kindOp]

end Sys2Proof.Laws.RowSelect
end

