-- ==== Sys2Proof/Laws/Sequences.lean ====
section
/-! SUPPORT. What issuing a list of host steps does, said once by induction over the list: the requests that form frames are emitted in
order, each answered by the next answer of the environment, and delays change nothing. -/

namespace Sys2Proof.Machine

/-- The register file after frames have met their link answers, in order. -/
def applyAll (p : Params) (fs : List (Frame × LinkAnswer)) (rf : RegFile) : RegFile :=
  fs.foldl (fun acc x => if answerApplied x.2 then applyFrame p x.1 acc else acc) rf

@[simp] theorem applyAll_nil (p : Params) (rf : RegFile) : applyAll p [] rf = rf := rfl

@[simp] theorem applyAll_cons (p : Params) (x : Frame × LinkAnswer) (fs : List (Frame × LinkAnswer)) (rf : RegFile) :
    applyAll p (x :: fs) rf = applyAll p fs (if answerApplied x.2 then applyFrame p x.1 rf else rf) := rfl

/-! ### The frames of assembled lines -/

@[simp] theorem frameOfStep_wrLine (p : Params) (r : Reg) (v : Byte) :
    frameOfStep p (assemble p (wrLine r v)) = some (writeFrame p (r, v)) := by
  simp [frameOfStep, assemble, wrLine, RegOperand.address, writeFrame]

@[simp] theorem frameOfStep_bright (p : Params) (v : Byte) :
    frameOfStep p (assemble p (.bright v)) = some (writeFrame p (.intensity, v)) := by
  simp [frameOfStep, assemble, writeFrame]

@[simp] theorem frameOfStep_delay (p : Params) (ms : Nat) : frameOfStep p (assemble p (.delay ms)) = none := rfl

/-! ### Steps with the answers they meet -/

@[simp] theorem meetAnswers_nil (p : Params) (answers : List LinkAnswer) : meetAnswers p [] answers = [] := rfl

theorem meetAnswers_asking {p : Params} {h : HostStep} (e : asksLink p h = true) (hs : List HostStep) (a : LinkAnswer)
    (rest : List LinkAnswer) : meetAnswers p (h :: hs) (a :: rest) = (h, a) :: meetAnswers p hs rest := by
  simp [meetAnswers, e]

theorem meetAnswers_silent {p : Params} {h : HostStep} (e : asksLink p h = false) (hs : List HostStep) (answers : List LinkAnswer) :
    meetAnswers p (h :: hs) answers = (h, .ok) :: meetAnswers p hs answers := by
  simp [meetAnswers, e]

theorem answersNeeded_asking {p : Params} {h : HostStep} (e : asksLink p h = true) (hs : List HostStep) :
    answersNeeded p (h :: hs) = answersNeeded p hs + 1 := by
  simp [answersNeeded, e]

theorem answersNeeded_silent {p : Params} {h : HostStep} (e : asksLink p h = false) (hs : List HostStep) :
    answersNeeded p (h :: hs) = answersNeeded p hs := by
  simp [answersNeeded, e]

/-! ### Applied frames, one after the other -/

theorem applyAll_append (p : Params) (fs gs : List (Frame × LinkAnswer)) (rf : RegFile) :
    applyAll p (fs ++ gs) rf = applyAll p gs (applyAll p fs rf) := by
  simp [applyAll]

/-- A register after frames have been applied in order: the data byte of the last applied one that selects it, else its old content. -/
theorem readReg_applyAll (p : Params) (r : Reg) (rf : RegFile) (fs : List (Frame × LinkAnswer)) :
    readReg r (applyAll p fs rf) = match lastApplied p r fs with | some v => some v | none => readReg r rf := by
  induction fs using List.reverseRecOn with
  | nil => rfl
  | append_singleton fs x ih =>
    rw [applyAll_append]
    simp only [applyAll_cons, applyAll_nil]
    unfold lastApplied at ih ⊢
    rw [List.filter_append]
    cases ha : answerApplied x.2 with
    | false => simp [ha, ih]
    | true =>
      simp only [if_true, applyFrame, readReg_memWrite]
      cases hw : writeEnable p (frameAddr x.1) r with
      | false => simp [ha, hw, ih]
      | true => simp [ha, hw]

/-! ### One host step -/

theorem opKind_eq_reserved {op : BitVec 2} : opKind op = .reserved ↔ op = 0b11#2 := by
  revert op; decide

theorem opKind_eq_pixel {op : BitVec 2} : opKind op = .pixel ↔ op = 0b01#2 := by
  revert op; decide

/-- The response of serving a request is the one the checks of R216 give for the link's answer. -/
theorem serve_response (w : ReqWord) (s : State) :
    (s.serve (opKind (reqOp w)) (reqV w) (reqA w) (reqB w)).response = responseDue (.request w) s.linkAnswer := by
  obtain ⟨hk, h⟩ | ⟨hk, hc, h⟩ | ⟨f, hf, h⟩ := serve_cases (opKind (reqOp w)) (reqV w) (reqA w) (reqB w) s
  · rw [h]
    simp [responseDue, opKind_eq_reserved.mp hk]
  · have hn : ¬ ((reqA w).toNat < 8 ∧ (reqB w).toNat < 8) := fun c => by rw [(coordOk_iff _ _).mpr c] at hc; cases hc
    have hop := opKind_eq_pixel.mp hk
    have h3 : reqOp w ≠ 0b11#2 := by rw [hop]; decide
    simp only [h, State.raise_response, responseDue, if_neg h3, if_pos (And.intro hop hn)]
  · have h3 : reqOp w ≠ 0b11#2 := fun e => by rw [e] at hf; cases hf
    have h1 : ¬ (reqOp w = 0b01#2 ∧ ¬ ((reqA w).toNat < 8 ∧ (reqB w).toNat < 8)) := by
      rintro ⟨e, hn⟩
      rw [e] at hf
      obtain ⟨hx, hy, -⟩ := formFrame_pixel_some hf
      exact hn ⟨hx, hy⟩
    simp only [h, State.emit_response, responseDue, if_neg h3, if_neg h1]
    cases s.linkAnswer <;> rfl

/-- All that a step does beside the outputs of a frame at D: which answer it uses up, what its frame does to the registers, and which
response a request gets. -/
theorem step_host_result {h : HostStep} {rest : List HostStep} {s t : State} (hp : s.pending = h :: rest) (e : step s = .next t) :
    t.params = s.params ∧ t.pending = rest ∧
    t.linkScript = (if asksLink s.params h then s.linkScript.tail else s.linkScript) ∧
    t.regs = (match frameOfStep s.params h with
      | some f =>
        if answerApplied (if asksLink s.params h then s.advance.linkAnswer else .ok) then applyFrame s.params f s.regs else s.regs
      | none => s.regs) ∧
    (h ≠ .configureLink → s.settled = true → t.settled = true) ∧
    (isRequest h = true → t.response = responseDue h s.advance.linkAnswer) := by
  rw [step_of_head hp] at e
  cases h with
  | configureLink =>
    cases e
    exact ⟨rfl, by simp [hp], rfl, rfl, fun h => absurd rfl h, fun h => by cases h⟩
  | delay ms =>
    cases e
    exact ⟨by simp, by simp [hp], by simp [asksLink], by simp [frameOfStep], fun _ hs => State.wait_settled ms s.advance hs,
      fun h => by cases h⟩
  | request w =>
    have e' := (runInstr_effect e).1
    rw [exec_decodeReq] at e'
    cases e'
    refine ⟨?_, ?_, ?_, ?_, ?_, fun _ => serve_response w _⟩ <;>
    (cases hf : frameOfStep s.params (.request w) with
      | none => obtain ⟨_, -, he⟩ := serve_of_no_frame (s := s.advance) hf; rw [he]; simp [asksLink, hp, hf]
      | some f => rw [serve_of_frame (s := s.advance) hf]; simp [asksLink, hp, hf])
  | frame f =>
    simp only [runHostStep] at e
    cases hd : decodeFrame s.advance.params f with
    | ok i =>
      rw [hd] at e
      have e' := (runInstr_effect e).1
      rw [exec_decodeFrame hd] at e'
      cases e'
      exact ⟨rfl, by simp [hp], rfl, rfl, fun _ h => h, fun h => by cases h⟩
    | error _ =>
      rw [hd] at e
      simp only at e
      split at e
      · cases e
        exact ⟨rfl, by simp [hp], rfl, (applyFrame_of_undecoded hd s.regs).symm, fun _ h => h, fun h => by cases h⟩
      · cases e

/-- In a settled run every step answers a next state. -/
theorem step_completes {s : State} (hset : s.settled = true) : ∃ t, step s = .next t := by
  have run : ∀ i, ∃ t, runInstr i s.advance = .next t := fun i => by
    obtain ⟨t, ht, -⟩ := exec_effect i s.advance
    exact ⟨t, (runInstr_of_admits (s := s.advance) (admits_of_settled i hset)).trans ht⟩
  cases hp : s.pending with
  | nil => exact ⟨s, by simp [step, stepState, hp]⟩
  | cons h rest =>
    rw [step_of_head hp]
    cases h with
    | configureLink => exact ⟨_, rfl⟩
    | delay ms => exact ⟨_, rfl⟩
    | request w => exact run _
    | frame f =>
      simp only [runHostStep]
      split
      · exact run _
      · exact ⟨_, if_pos hset⟩

/-! ### One issued step -/

@[simp] theorem issue_nil (s : State) (r : Report) : issue [] s r = .next (s, r) := rfl

theorem issue_cons_next {h : HostStep} {hs : List HostStep} {s t : State} (r : Report) (e : step (s.present h) = .next t) :
    issue (h :: hs) s r = issue hs t (r.after h t) := by
  simp only [issue, e]

/-- A delay issued by the host. -/
theorem step_present_delay (ms : Nat) (s : State) :
    step (s.present (.delay ms)) = .next ((s.present (.delay ms)).advance.wait ms) := rfl

/-- A request word that forms a frame, issued in a settled run, emits it. -/
theorem step_present_frame {s : State} {w : ReqWord} {f : Frame} (hs : s.settled = true)
    (hf : frameOfStep s.params (.request w) = some f) :
    step (s.present (.request w)) = .next ((s.present (.request w)).advance.emit f) := by
  rw [step_present_request hs]
  congr 1
  exact serve_of_frame hf

/-! ### A list of steps -/

/-- A step of a list that puts a frame on the link by a request, or waits. -/
def EmitsOrWaits (p : Params) (h : HostStep) : Prop :=
  (∃ ms, h = .delay ms) ∨ ∃ w f, h = .request w ∧ frameOfStep p h = some f

/-- What a list of emitting requests and delays does in a settled run when the environment has fixed its answers. -/
theorem issue_emitting {p : Params} (more : List LinkAnswer) :
    ∀ (hs : List HostStep) (answers : List LinkAnswer) (s : State) (rep : Report),
      s.params = p → s.settled = true → (∀ h ∈ hs, EmitsOrWaits p h) →
      answers.length = (hs.filterMap (frameOfStep p)).length → s.linkScript = answers ++ more →
      ∃ t rep', issue hs s rep = .next (t, rep') ∧
        t.regs = applyAll p ((hs.filterMap (frameOfStep p)).zip answers) s.regs ∧
        t.params = p ∧ t.settled = true ∧ t.pending = s.pending ∧ t.linkScript = more ∧
        rep'.requests = rep.requests + answers.length ∧
        rep'.frames = rep.frames ++ hs.filterMap (frameOfStep p) ∧
        (rep'.success = true ↔ rep.success = true ∧ ∀ a ∈ answers, a = .ok) := by
  intro hs
  induction hs with
  | nil =>
    intro answers s rep hp hset _ hlen hscript
    have : answers = [] := List.length_eq_zero_iff.mp (by simpa using hlen)
    subst this
    exact ⟨s, rep, rfl, by simp, hp, hset, rfl, by simpa using hscript, by simp, by simp, by simp⟩
  | cons h hs ih =>
    intro answers s rep hp hset hall hlen hscript
    have hrest : ∀ h' ∈ hs, EmitsOrWaits p h' := fun h' hm => hall h' (List.mem_cons_of_mem _ hm)
    rcases hall h (List.mem_cons_self) with ⟨ms, rfl⟩ | ⟨w, f, rfl, hf⟩
    · have hskip : List.filterMap (frameOfStep p) (.delay ms :: hs) = List.filterMap (frameOfStep p) hs :=
        List.filterMap_cons_none rfl
      rw [hskip] at hlen ⊢
      rw [issue_cons_next rep (step_present_delay ms s)]
      obtain ⟨t, rep', h1, h2, h3⟩ := ih answers ((s.present (.delay ms)).advance.wait ms) (rep.after (.delay ms) _)
        (by simpa using hp) (State.wait_settled _ _ hset) hrest hlen (by simpa using hscript)
      exact ⟨t, rep', h1, by simpa using h2, by simpa [Report.after] using h3⟩
    · rw [List.filterMap_cons_some hf, List.length_cons] at hlen
      obtain ⟨a, rest, rfl⟩ : ∃ a rest, answers = a :: rest := by
        cases answers with
        | nil => simp at hlen
        | cons a rest => exact ⟨a, rest, rfl⟩
      have hf' : frameOfStep s.params (.request w) = some f := by rw [hp]; exact hf
      have hans : (s.present (.request w)).advance.linkAnswer = a := State.linkAnswer_of_script (rest := rest ++ more) hscript
      rw [issue_cons_next rep (step_present_frame hset hf')]
      obtain ⟨t, rep', h1, h2, h3, h4, h5, h6, h7, h8, h9⟩ :=
        ih rest ((s.present (.request w)).advance.emit f) (rep.after (.request w) _)
          (by simpa using hp) (by simpa using hset) hrest (by simpa using hlen) (by simp [hscript])
      refine ⟨t, rep', h1, ?_, h3, h4, ?_, h6, ?_, ?_, ?_⟩
      · rw [h2, List.filterMap_cons_some hf, List.zip_cons_cons, applyAll_cons]
        simp [hans, hp]
      · simpa using h5
      · rw [h7]
        simp only [Report.after, List.length_cons]
        omega
      · rw [h8, List.filterMap_cons_some hf]
        simp [Report.after]
      · rw [h9]
        simp only [Report.after, State.emit_response, hans, Bool.and_eq_true, List.mem_cons, forall_eq_or_imp]
        cases a <;> simp [answerResp]

end Sys2Proof.Machine
end

