-- ==== Sys2Proof/Tests/Slice0.lean ====
section
/-! SUPPORT. Tests. Expected results are the spec's own vectors (95_test_vectors.md) or hand readings of its encodings; W, X, B, Q, V, P and E
name rows of that file. The witnesses at the end show, for every statement with hypotheses, concrete values that meet them together. -/

open Sys2Proof Sys2Proof.Machine

namespace Sys2Proof.Tests

/-! ### Helpers -/

/-- The next state of an outcome. -/
def after : Host.Outcome State Fault Refusal → Option State
  | .next t => some t
  | .fault _ => none
  | .refused _ => none

/-- Whether an outcome is the refusal of an unsettled run. -/
def unsettledRefusal : Host.Outcome State Fault Refusal → Bool
  | .refused .notSettled => true
  | _ => false

/-- Power-up with the link configured and the settling delay waited, and the given link answers to come. -/
def ready (answers : List LinkAnswer) : State :=
  { State.reset with link := .configured 500, linkScript := answers }

/-- The registers INIT leaves (R183). -/
def initRegs : RegFile where
  digit0 := some 0x00#8
  digit1 := some 0x00#8
  digit2 := some 0x00#8
  digit3 := some 0x00#8
  digit4 := some 0x00#8
  digit5 := some 0x00#8
  digit6 := some 0x00#8
  digit7 := some 0x00#8
  decodeMode := some 0x00#8
  intensity := some 0x07#8
  scanLimit := some 0x07#8
  shutdown := some 0x01#8
  displayTest := some 0x00#8

/-- The state after INIT, with the given link answers to come. -/
def lit7 (answers : List LinkAnswer) : State := { ready answers with regs := initRegs }

/-! ### Well-formedness refuses ill-formed terms -/

theorem test_wf_refuses_two_names_at_one_address :
    ({ Params.default with pAddr := { PAddr.default with digit1 := 0x01#8 } } : Params).wf = false := by decide
theorem test_wf_refuses_a_high_address_with_four_bits :
    ({ Params.defaultFour with pAddr := { PAddr.default with displayTest := 0x1F#8 } } : Params).wf = false := by decide
theorem test_wf_accepts_the_high_address_with_eight_bits :
    ({ Params.default with pAddr := { PAddr.default with displayTest := 0x1F#8 } } : Params).wf = true := by decide
theorem test_assembled_refuses_raw_with_v_set : (Instr.raw 1#1 0x0B#8 0x07#8).assembled = false := by decide
theorem test_assembled_refuses_brightness_with_v_set : (Instr.brightness 1#1 0x00#8 0xFF#8).assembled = false := by decide
theorem test_assembled_refuses_brightness_with_a_set : (Instr.brightness 0#1 0xFF#8 0xFF#8).assembled = false := by decide
theorem test_assembled_refuses_reserved_with_b_set : (Instr.reserved 0#1 0x00#8 0x05#8).assembled = false := by decide

/-! ### One word of every row, written out from R71, R73 and R22's addresses -/

theorem test_decode_noop : decodeTableWord 16 0b00000000_10100101 = some (.wrNoop 0xA5#8) := by decide
theorem test_decode_digit0 : decodeTableWord 16 0b00000001_01010101 = some (.wrDigit0 0x55#8) := by decide
theorem test_decode_digit1 : decodeTableWord 16 0b00000010_10000000 = some (.wrDigit1 0x80#8) := by decide
theorem test_decode_digit2 : decodeTableWord 16 0b00000011_00000001 = some (.wrDigit2 0x01#8) := by decide
theorem test_decode_digit3 : decodeTableWord 16 0b00000100_11111111 = some (.wrDigit3 0xFF#8) := by decide
theorem test_decode_digit4 : decodeTableWord 16 0b00000101_00111100 = some (.wrDigit4 0x3C#8) := by decide
theorem test_decode_digit5 : decodeTableWord 16 0b00000110_00000000 = some (.wrDigit5 0x00#8) := by decide
theorem test_decode_digit6 : decodeTableWord 16 0b00000111_01111110 = some (.wrDigit6 0x7E#8) := by decide
theorem test_decode_digit7 : decodeTableWord 16 0b00001000_10000001 = some (.wrDigit7 0x81#8) := by decide
theorem test_decode_decodemode : decodeTableWord 16 0b00001001_11111111 = some (.wrDecodeMode 0xFF#8) := by decide
theorem test_decode_intensity : decodeTableWord 16 0b00001010_00111111 = some (.wrIntensity 0x3F#8) := by decide
theorem test_decode_scanlimit : decodeTableWord 16 0b00001011_00000111 = some (.wrScanLimit 0x07#8) := by decide
theorem test_decode_shutdown : decodeTableWord 16 0b00001100_00000001 = some (.wrShutdown 0x01#8) := by decide
theorem test_decode_displaytest : decodeTableWord 16 0b00001111_00000001 = some (.wrDisplayTest 0x01#8) := by decide
theorem test_decode_raw : decodeTableWord 24 0b00_1_00001011_00000111 = some (.raw 1#1 0x0B#8 0x07#8) := by decide
theorem test_decode_pixel : decodeTableWord 24 0b01_1_00000011_00000101 = some (.pixel 1#1 0x03#8 0x05#8) := by decide
theorem test_decode_brightness : decodeTableWord 24 0b10_1_11111111_11111110 = some (.brightness 1#1 0xFF#8 0xFE#8) := by decide
theorem test_decode_reserved : decodeTableWord 24 0b11_1_00000011_00000101 = some (.reserved 1#1 0x03#8 0x05#8) := by decide

/-- The gaps at 0x0D, 0x0E and 0x10 are no row (R57); no format has 17 bits; a 20th bit is no part of REQ19. -/
theorem test_decode_rejects :
    decodeTableWord 16 0x0D33 = none ∧ decodeTableWord 16 0x0EFF = none ∧ decodeTableWord 16 0x10FF = none ∧
    decodeTableWord 17 0x0155 = none ∧ decodeTableWord 24 0x80000 = none := by decide

/-- W23 to W25: the high addresses under both values of `DECODE_BITS`. -/
theorem test_decode_bits :
    decodeAddr Params.default 0x1C#8 = none ∧ decodeAddr Params.defaultFour 0x1C#8 = some (.reg .shutdown) ∧
    decodeAddr Params.defaultFour 0x81#8 = some (.reg .digit0) ∧ decodeAddr Params.defaultFour 0xFF#8 = some (.reg .displayTest) ∧
    decodeAddr Params.defaultFour 0x10#8 = some .noop ∧ decodeAddr Params.defaultFour 0x3D#8 = none := by decide

/-! ### One step of every instruction -/

theorem test_noop : after (exec (.wrNoop 0xA5#8) (lit7 [])) = some (lit7 []) := by decide
theorem test_digit0 : (after (exec (.wrDigit0 0x55#8) State.reset)).map (·.regs.digit0) = some (some 0x55#8) := by decide
theorem test_digit1 : (after (exec (.wrDigit1 0x80#8) State.reset)).map (·.regs.digit1) = some (some 0x80#8) := by decide
theorem test_digit2 : (after (exec (.wrDigit2 0x01#8) State.reset)).map (·.regs.digit2) = some (some 0x01#8) := by decide
/-- W5: the old 0x10 is lost. -/
theorem test_digit3 :
    (after (exec (.wrDigit3 0xFF#8) { ready [] with regs := { initRegs with digit3 := some 0x10#8 } })).map (·.regs) =
      some { initRegs with digit3 := some 0xFF#8 } := by decide
theorem test_digit4 : (after (exec (.wrDigit4 0x3C#8) State.reset)).map (·.regs.digit4) = some (some 0x3C#8) := by decide
theorem test_digit5 : (after (exec (.wrDigit5 0x00#8) State.reset)).map (·.regs.digit5) = some (some 0x00#8) := by decide
theorem test_digit6 : (after (exec (.wrDigit6 0x7E#8) State.reset)).map (·.regs.digit6) = some (some 0x7E#8) := by decide
theorem test_digit7 : (after (exec (.wrDigit7 0x81#8) State.reset)).map (·.regs.digit7) = some (some 0x81#8) := by decide
theorem test_decodemode : (after (exec (.wrDecodeMode 0xFF#8) State.reset)).map (·.regs.decodeMode) = some (some 0xFF#8) := by decide
/-- W13: stored unmasked. -/
theorem test_intensity : (after (exec (.wrIntensity 0x3F#8) State.reset)).map (·.regs.intensity) = some (some 0x3F#8) := by decide
theorem test_scanlimit : (after (exec (.wrScanLimit 0x03#8) State.reset)).map (·.regs.scanLimit) = some (some 0x03#8) := by decide
/-- W17: every other register survives. -/
theorem test_shutdown :
    (after (exec (.wrShutdown 0x00#8) (lit7 []))).map (·.regs) = some { initRegs with shutdown := some 0x00#8 } := by decide
theorem test_displaytest : (after (exec (.wrDisplayTest 0x01#8) State.reset)).map (·.regs.displayTest) = some (some 0x01#8) := by decide

/-- W26: `V` is ignored. -/
theorem test_raw :
    (after (exec (.raw 1#1 0x0B#8 0x07#8) (ready [.ok]))).map (fun t => (t.regs.scanLimit, t.response, t.emitted)) =
      some (some 0x07#8, some .ok, some 0x0B07#16) := by decide
/-- W20: an unmapped address writes nothing and the response is still OK. -/
theorem test_raw_unmapped :
    (after (exec (.raw 0#1 0x0D#8 0x33#8) (lit7 [.ok]))).map (fun t => (t.regs, t.response, t.emitted)) =
      some (initRegs, some .ok, some 0x0D33#16) := by decide
/-- X3. -/
theorem test_pixel :
    (after (exec (.pixel 1#1 0x03#8 0x05#8) (lit7 [.ok]))).map (fun t => (t.regs, t.response, t.emitted)) =
      some ({ initRegs with digit3 := some 0x20#8 }, some .ok, some 0x0420#16) := by decide
/-- X8: DIGIT0 is not written. -/
theorem test_pixel_out_of_range :
    (after (exec (.pixel 1#1 0xFF#8 0x00#8) (lit7 [.ok]))).map (fun t => (t.regs, t.response, t.emitted)) =
      some (initRegs, some .invalidCoordinate, none) := by decide
/-- B8: `A` and `V` are ignored, the byte is unmasked. -/
theorem test_brightness :
    (after (exec (.brightness 1#1 0xFF#8 0xFF#8) (lit7 [.ok]))).map (fun t => (t.regs, t.response, t.emitted)) =
      some ({ initRegs with intensity := some 0xFF#8 }, some .ok, some 0x0AFF#16) := by decide
/-- B10: both outcomes of the draw. -/
theorem test_brightness_link_failure :
    (after (exec (.brightness 0#1 0x00#8 0xFF#8) (lit7 [.error true]))).map (fun t => (t.regs.intensity, t.response)) =
      some (some 0xFF#8, some .transportError) ∧
    (after (exec (.brightness 0#1 0x00#8 0xFF#8) (lit7 [.error false]))).map (fun t => (t.regs.intensity, t.response)) =
      some (some 0x07#8, some .transportError) := by decide
/-- Q4: the kind check comes before the coordinate check. -/
theorem test_reserved :
    (after (exec (.reserved 0#1 0x08#8 0x00#8) (lit7 [.ok]))).map (fun t => (t.regs, t.response, t.emitted)) =
      some (initRegs, some .reservedOp, none) := by decide

/-! ### Codes, steps, sequences, display -/

/-- R78. -/
theorem test_response_codes :
    Resp.ok.code = 0b00#2 ∧ Resp.invalidCoordinate.code = 0b01#2 ∧ Resp.transportError.code = 0b10#2 ∧ Resp.reservedOp.code = 0b11#2 := by
  decide

/-- A table word placed for the next step runs as the first step after power-up. -/
theorem test_step_runs_a_placed_frame :
    (after (step (State.reset.withFetchWord 16 0x0881))).map (fun t => (t.regs.digit7, t.pending)) = some (some 0x81#8, []) := by decide
theorem test_step_runs_a_placed_request :
    (after (step (State.reset.withFetchWord 24 0x60000))).map (fun t => (t.response, t.pending)) = some (some .reservedOp, []) := by decide

/-- R182: the request words of INIT. -/
theorem test_init_words :
    initLines.map (assemble Params.default) =
      [.delay 500, .request 0x00B07#19, .request 0x00900#19, .request 0x00F00#19, .request 0x00C01#19, .request 0x00A07#19,
       .request 0x00100#19, .request 0x00200#19, .request 0x00300#19, .request 0x00400#19, .request 0x00500#19,
       .request 0x00600#19, .request 0x00700#19, .request 0x00800#19] := by decide

/-- V5: after INIT and `WR DIGIT5, 0x81`. -/
theorem test_display_v5 :
    (after (exec (.wrDigit5 0x81#8) (lit7 []))).map (fun t => (t.lit 5 0, t.lit 5 7, t.lit 5 1, t.lit 4 0, t.level)) =
      some (true, true, false, false, 7) := by decide

/-- R50: frame 0x0155 on the wire. -/
theorem test_wire_order :
    frameBits 0x0155#16 =
      [false, false, false, false, false, false, false, true, false, true, false, true, false, true, false, true] := by decide

/-! ### Witnesses: values that meet a statement's hypotheses together -/

theorem witness_DecodeOfEncodeIsTheInstruction : Params.default.wf = true ∧ Params.defaultFour.wf = true := by decide

theorem witness_RequestWordsDecodeByOpAlone :
    reqOp 0x00B07#19 = 0b00#2 ∧ reqOp 0x3FFFF#19 = 0b01#2 ∧ reqOp 0x40000#19 = 0b10#2 ∧ reqOp 0x7FFFF#19 = 0b11#2 := by decide

theorem witness_DecodeMatchesTheComparedBits :
    Params.defaultFour.wf = true ∧ decodeAddr Params.defaultFour 0xFF#8 = some (.reg .displayTest) ∧
    decodeAddr Params.defaultFour 0xFE#8 = none := by decide

theorem witness_MemWriteIsTheWholeEffectOfAFrame :
    decodeAddr Params.default 0x08#8 = some (.reg .digit7) ∧ decodeAddr Params.default 0x00#8 = some .noop ∧
    decodeAddr Params.default 0x10#8 = none := by decide

theorem witness_WriteEnablesAreOneHot :
    writeEnable Params.default (frameAddr 0x0F01#16) .displayTest = true ∧
    decodeAddr Params.default (frameAddr 0x00A5#16) = some .noop ∧ decodeAddr Params.default (frameAddr 0x0E00#16) = none := by decide

/-- x = 7, y = 7, the last coordinates in range, with a frame the link applies. -/
theorem witness_PixelWritesOneRow :
    (0x07#8 : Byte).toNat < 8 ∧ (ready [.error true]).params.wf = true ∧
    answerApplied (ready [.error true]).linkAnswer = true := by decide

theorem witness_BrightnessWritesIntensity :
    (ready [.ok]).params.wf = true ∧ answerApplied (ready [.ok]).linkAnswer = true := by decide

/-- x = 8 and y = 8, the first coordinates out of range, and x = y = 7. -/
theorem witness_OnlyPixelRaisesInvalidCoordinate :
    ¬ ((0x08#8 : Byte).toNat < 8 ∧ (0x00#8 : Byte).toNat < 8) ∧ ¬ ((0x00#8 : Byte).toNat < 8 ∧ (0x08#8 : Byte).toNat < 8) ∧
    ((0x07#8 : Byte).toNat < 8 ∧ (0x07#8 : Byte).toNat < 8) := by decide

theorem witness_RaisingRecordsOnlyTheResponse :
    frameOfStep State.reset.params (.request 0x30800#19) = none ∧
    ∃ t, exec (decodeReq 0x30800#19) State.reset = .next t ∧ t.response = some .invalidCoordinate :=
  ⟨by decide, _, rfl, by decide⟩

theorem witness_ResponseFollowsTheCheckOrder :
    reqOp 0x60800#19 = 0b11#2 ∧
    (reqOp 0x30008#19 = 0b01#2 ∧ ¬ ((reqA 0x30008#19).toNat < 8 ∧ (reqB 0x30008#19).toNat < 8)) ∧
    (reqOp 0x30707#19 ≠ 0b11#2 ∧ (reqOp 0x30707#19 = 0b01#2 → (reqA 0x30707#19).toNat < 8 ∧ (reqB 0x30707#19).toNat < 8)) ∧
    (reqOp 0x0FFFF#19 ≠ 0b11#2 ∧ (reqOp 0x0FFFF#19 = 0b01#2 → (reqA 0x0FFFF#19).toNat < 8 ∧ (reqB 0x0FFFF#19).toNat < 8)) := by
  decide

theorem witness_EveryLinkOutcomeIsAdmitted : frameOfStep State.reset.params (.request 0x30707#19) = some 0x0880#16 := by decide

/-- A mapped and an unmapped address, an applied and a dropped frame. -/
theorem witness_RawActsAsTheDecodedCommand :
    (∃ t, exec (.raw 0#1 0x0C#8 0x01#8) (ready [.ok]) = .next t) ∧
    decodeFrame (ready [.ok]).params (mkFrame 0x0C#8 0x01#8) = .ok (.wrShutdown 0x01#8) ∧
    answerApplied (ready [.ok]).linkAnswer = true ∧
    decodeFrame (ready [.ok]).params (mkFrame 0x10#8 0xFF#8) = .error (.noRegister 0x10FF#16) ∧
    answerApplied (ready [.error false]).linkAnswer = false :=
  ⟨⟨_, rfl⟩, by rfl, by decide, by rfl, by decide⟩

theorem witness_RowByteSetsOneBit : (0x07#8 : Byte).toNat < 8 := by decide

theorem witness_MapperHasNoFallback : (0x07#8 : Byte).toNat < 8 ∧ 8 ≤ (0x08#8 : Byte).toNat := by decide

/-- X12: `PIXEL 3, 5, 1` then `PIXEL 3, 2, 1`, both answered OK. -/
theorem witness_PixelIsDestructive :
    (lit7 [.ok, .ok]).params.wf = true ∧
    ∃ t u, exec (.pixel 1#1 0x03#8 0x05#8) (lit7 [.ok, .ok]) = .next t ∧ t.response = some .ok ∧
      exec (.pixel 1#1 0x03#8 0x02#8) t = .next u ∧ u.response = some .ok :=
  ⟨by decide, _, _, rfl, by decide, rfl, by decide⟩

theorem witness_PixelFramesAreInjective :
    formFrame Params.default .pixel 1#1 0x07#8 0x00#8 = some 0x0801#16 ∧
    formFrame Params.default .pixel 0#1 0x07#8 0x07#8 = some 0x0800#16 := by decide

theorem witness_RequestKindsReachTheirRegisters :
    (lit7 [.ok]).params.wf = true ∧ answerApplied (lit7 [.ok]).linkAnswer = true ∧ (∀ d, Reg.shutdown ≠ digitReg d) ∧
    (∃ t, exec (.pixel 1#1 0x07#8 0x07#8) (lit7 [.ok]) = .next t) ∧
    (∃ t, exec (.brightness 0#1 0x00#8 0x0F#8) (lit7 [.ok]) = .next t) :=
  ⟨by decide, by decide, by decide, ⟨_, rfl⟩, ⟨_, rfl⟩⟩

/-- A settled run that is asked for `WR DIGIT7, 0x81`. -/
def asked : State := { ready [.ok] with pending := [.request 0x00881#19] }

/-- The step answers, and DIGIT7, which the pending frame selects, changes. -/
theorem witness_AStepWritesAtMostOneRegister :
    frameOfStep asked.params (.request 0x00881#19) = some 0x0881#16 ∧
    decodeAddr asked.params (frameAddr 0x0881#16) = some (.reg .digit7) ∧
    ∃ t, step asked = .next t ∧ readReg .digit7 t.regs ≠ readReg .digit7 asked.regs ∧ readReg .digit7 t.regs = some 0x81#8 :=
  ⟨by decide, by decide, _, rfl, by decide, by decide⟩

theorem witness_NoRequestReadsARegister : (∃ t, step asked = .next t) ∧ initRegs ≠ asked.regs :=
  ⟨⟨_, rfl⟩, by decide⟩

/-- Steps of every kind but boot step 1: RAW to DIGIT0, PIXEL out of range, a delay, PIXEL (3, 5), a frame at D to DISPLAYTEST, the reserved
kind, and BRIGHTNESS. -/
def mixedSteps : List HostStep :=
  [.request 0x00155#19, .request 0x30800#19, .delay 1, .request 0x30305#19, .frame 0x0F00#16, .request 0x60000#19, .request 0x4000F#19]

/-- Three of the mixed steps ask the link: RAW is answered OK, PIXEL is not applied, BRIGHTNESS is applied with an error. -/
def mixedAnswers : List LinkAnswer := [.ok, .error false, .error true]

theorem witness_RegistersHoldTheLastAppliedByte :
    let s : State := { ready mixedAnswers with pending := mixedSteps ++ [.delay 7] }
    s.settled = true ∧ (∀ h ∈ mixedSteps, h ≠ .configureLink) ∧ answersNeeded s.params mixedSteps = 3 ∧ s.linkScript.length = 3 ∧
    answeredFrames s.params mixedSteps s.linkScript =
      [(0x0155#16, .ok), (0x0420#16, .error false), (0x0F00#16, .ok), (0x0A0F#16, .error true)] ∧
    lastApplied s.params .digit0 (answeredFrames s.params mixedSteps s.linkScript) = some 0x55#8 ∧
    lastApplied s.params .digit3 (answeredFrames s.params mixedSteps s.linkScript) = none ∧
    lastApplied s.params .intensity (answeredFrames s.params mixedSteps s.linkScript) = some 0x0F#8 := by decide

/-- A settled run, and an unsettled one that is asked for a reserved word. -/
theorem witness_StepRunsTheRequestedInstruction :
    asked.pending = .request 0x00881#19 :: [] ∧ asked.settled = true ∧
    ({ State.reset with pending := [.request 0x60000#19] } : State).settled = false ∧
    frameOfStep State.reset.params (.request 0x60000#19) = none := by decide

theorem witness_StepRunsTheDeliveredFrame :
    (ready []).settled = true ∧ decodeFrame (ready []).params 0x0F00#16 = .ok (.wrDisplayTest 0x00#8) ∧
    decodeFrame (ready []).params 0x0E00#16 = .error (.noRegister 0x0E00#16) :=
  ⟨by decide, rfl, rfl⟩

/-- An idle machine, boot step 1, and a delay that ends exactly at 500 ms. -/
theorem witness_HostOnlyStepsChangeNoRegister :
    State.reset.pending = [] ∧
    (State.reset.present .configureLink).pending = .configureLink :: [] ∧
    (({ State.reset with link := .configured 0 } : State).present (.delay 500)).pending = .delay 500 :: [] ∧ 500 ≤ 0 + 500 := by decide

/-- 499 ms are too few for a frame. -/
theorem witness_OnlyAnUnsettledFrameIsNotAdmitted :
    unsettledRefusal (step { State.reset with link := .configured 499, pending := [.request 0x00881#19] }) = true ∧
    ({ State.reset with link := .configured 499 } : State).settled = false ∧
    frameOfStep State.reset.params (.request 0x00881#19) = some 0x0881#16 := by decide

theorem witness_EveryStepKeepsTheInvariant : asked.Inv = true ∧ ∃ t, step asked = .next t ∧ t.response = some .ok :=
  ⟨by decide, _, rfl, by decide⟩

/-- Another register that has been written, and one that has not. -/
theorem witness_PortsShowTheWrittenByte :
    Reg.digit1 ≠ Reg.digit0 ∧ readReg .digit1 (lit7 []).regs ≠ none ∧ readReg .digit1 State.reset.regs = none := by decide

/-- Written rows, and a row and a level that hold ⊥, in the normal configuration. -/
theorem witness_NormalConfigurationShowsTheRows :
    NormalConfig initRegs = true ∧ readReg (digitReg 7) initRegs = some 0x00#8 ∧ readReg .intensity initRegs = some 0x07#8 ∧
    NormalConfig { initRegs with digit0 := none, intensity := none } = true ∧
    readReg (digitReg 0) { initRegs with digit0 := none, intensity := none } = none ∧
    readReg .intensity { initRegs with digit0 := none, intensity := none } = none := by decide

/-- V2: only `WR DIGIT0, 0xFF` since power-up. -/
theorem witness_DarkUntilShutdownIsWritten :
    let s : State := { ready [.ok] with pending := [.request 0x001FF#19] }
    s.regs.shutdown = none ∧ frameOfStep s.params (.request 0x001FF#19) = some 0x01FF#16 ∧
    decodeAddr s.params (frameAddr 0x01FF#16) ≠ some (.reg .shutdown) ∧ ∃ t, Host.Core.run Sys2Proof.core 1 s = .next t :=
  ⟨by decide, by decide, by decide, _, rfl⟩

/-- V6: SHUTDOWN holds 0x00. -/
theorem witness_OtherConfigurationsShowDisplayOther :
    readReg .shutdown { initRegs with shutdown := some 0x00#8 } ≠ none ∧
    NormalConfig { initRegs with shutdown := some 0x00#8 } = false := by decide

theorem witness_LevelOfAnIntensityByte : (0x0F#8 : Byte).toNat ≤ 0x0F ∧ 0x10 ≤ (0x10#8 : Byte).toNat := by decide

/-- P5: the fourth answer is TransportError, not applied. -/
theorem witness_InitEndsInTheNormalConfiguration :
    let answers : List LinkAnswer := [.ok, .ok, .ok, .error false, .ok, .ok, .ok, .ok, .ok, .ok, .ok, .ok, .ok]
    let s : State := { State.reset with link := .configured 0, linkScript := answers ++ [] }
    s.params.wf = true ∧ s.link = .configured 0 ∧ answers.length = 13 ∧ initWrites[3]? = some (.shutdown, 0x01#8) ∧
    answers[3]? = some (.error false) := by decide

theorem witness_ClearBlanksEveryRow :
    let answers : List LinkAnswer := List.replicate 8 .ok
    let s : State := ready (answers ++ [])
    s.params.wf = true ∧ s.settled = true ∧ answers.length = 8 ∧ answers[7]? = some .ok ∧ ∀ d, Reg.intensity ≠ digitReg d := by decide

/-- All 103 answers OK; and the first one TransportError, not applied. -/
theorem witness_SelfTestIssues103Requests :
    (ready (List.replicate 103 .ok ++ [])).params.wf = true ∧ (ready (List.replicate 103 .ok ++ [])).settled = true ∧
    (ready (List.replicate 103 .ok ++ [])).linkScript = List.replicate 103 .ok ++ [] ∧
    (List.replicate 103 LinkAnswer.ok).length = 103 ∧ (∀ a ∈ List.replicate 103 LinkAnswer.ok, a = .ok) ∧
    (ready (.error false :: List.replicate 102 .ok)).settled = true ∧
    (LinkAnswer.error false :: List.replicate 102 .ok).length = 103 :=
  ⟨rfl, rfl, rfl, rfl, fun _ h => List.eq_of_mem_replicate h, rfl, rfl⟩

/-- Every kind of response is due, so the list fails; and a list all of whose responses are OK. -/
theorem witness_SequencesAreNeverCutShort :
    (ready mixedAnswers).settled = true ∧ (∀ h ∈ mixedSteps, h ≠ .configureLink) ∧
    answersNeeded (ready mixedAnswers).params mixedSteps ≤ (ready mixedAnswers).linkScript.length ∧
    responsesDue (ready mixedAnswers).params mixedSteps (ready mixedAnswers).linkScript =
      [.ok, .invalidCoordinate, .transportError, .reservedOp, .transportError] ∧
    responsesDue Params.default [.delay 1, .request 0x30707#19, .frame 0x0E00#16] [.ok] = [.ok] := by decide

theorem witness_BringUpOrderIsNotEnforced :
    let s : State := ready [.ok, .ok, .ok, .ok]
    s.params.wf = true ∧ s.settled = true ∧ s.linkScript = .ok :: .ok :: .ok :: .ok :: [] ∧ NormalConfig s.regs = false := by decide

/-- One word for each clause: reserved with x out of range, PIXEL with y = 8, PIXEL at x = y = 7, and RAW with every operand bit set; both
codes of the link's answer. -/
theorem witness_ResponseBitsFollowTheTable :
    reqOp 0x60800#19 = 0b11#2 ∧
    (reqOp 0x30008#19 = 0b01#2 ∧ ¬ ((reqA 0x30008#19).toNat < 8 ∧ (reqB 0x30008#19).toNat < 8)) ∧
    (reqOp 0x30707#19 ≠ 0b11#2 ∧ (reqA 0x30707#19).toNat < 8 ∧ (reqB 0x30707#19).toNat < 8) ∧
    (reqOp 0x0FFFF#19 ≠ 0b11#2 ∧ reqOp 0x0FFFF#19 ≠ 0b01#2) ∧
    (ready [.ok]).linkAnswer = .ok ∧ (ready [.error true]).linkAnswer ≠ .ok := by decide

end Sys2Proof.Tests
end

/-! ## No step reads a register (R25)

Every operation of the machine acts on the register file by one update that keeps or overwrites each cell without looking at it, and does
the same to the rest of the state whatever the registers hold. This is proved for each operation in turn, up to `step`. -/

namespace Sys2Proof.Machine

/-- An update of the register file that never looks at a content: each cell is kept, or overwritten with one fixed byte. -/
def BlindUpdate (g : RegFile → RegFile) : Prop :=
  ∀ r, (∀ rf, readReg r (g rf) = readReg r rf) ∨ ∃ v, ∀ rf, readReg r (g rf) = some v

/-- From `s`, `op` reads no register: if it answers a next state, then one blind update gives its answer from `s` with any registers. -/
def ReadsNoRegister (op : State → Host.Outcome State Fault Refusal) (s : State) : Prop :=
  ∀ t, op s = .next t → ∃ g, BlindUpdate g ∧ ∀ rf, op { s with regs := rf } = .next { t with regs := g rf }

/-! ### Blind updates -/

theorem blindUpdate_id : BlindUpdate id := fun _ => .inl fun _ => rfl

theorem blindUpdate_applyFrame (p : Params) (f : Frame) : BlindUpdate (applyFrame p f) := by
  intro r
  cases hw : writeEnable p (frameAddr f) r with
  | false => exact .inl fun rf => by simp [applyFrame, readReg_memWrite, hw]
  | true => exact .inr ⟨frameData f, fun rf => by simp [applyFrame, readReg_memWrite, hw]⟩

/-! ### The operations -/

/-- An operation that leaves the registers alone, and does the same beside them whatever they hold, reads none. -/
theorem readsNoRegister_of_keeps {op : State → Host.Outcome State Fault Refusal} {s t : State} (h : op s = .next t)
    (keeps : ∀ rf, op { s with regs := rf } = .next { t with regs := rf }) : ReadsNoRegister op s := by
  intro t' h'
  obtain rfl : t = t' := Host.Outcome.next.inj (h.symm.trans h')
  exact ⟨id, blindUpdate_id, keeps⟩

/-- The link answers without looking at a register (R52). -/
theorem linkAnswer_with_regs (s : State) (rf : RegFile) : ({ s with regs := rf } : State).linkAnswer = s.linkAnswer := rfl

/-- D applies an emitted frame, or does not, by the link's answer alone (R52). -/
theorem emit_regs_update (f : Frame) (s : State) :
    ∃ g, BlindUpdate g ∧ ∀ rf, ({ s with regs := rf } : State).emit f = { s.emit f with regs := g rf } := by
  cases ha : answerApplied s.linkAnswer with
  | false =>
    exact ⟨id, blindUpdate_id, fun rf => by simp [State.emit, linkAnswer_with_regs, ha]⟩
  | true =>
    exact ⟨applyFrame s.params f, blindUpdate_applyFrame s.params f, fun rf => by simp [State.emit, linkAnswer_with_regs, ha]⟩

/-- M's checks look at the request alone (R216). -/
theorem serve_readsNoRegister (k : ReqKind) (v : Bit) (a b : Byte) (s : State) :
    ReadsNoRegister (fun s => .next (s.serve k v a b)) s := by
  obtain ⟨rfl, -⟩ | ⟨rfl, hc, h⟩ | ⟨f, hf, h⟩ := serve_cases k v a b s
  · exact readsNoRegister_of_keeps rfl fun _ => rfl
  · exact readsNoRegister_of_keeps (congrArg _ h) fun _ => congrArg _ (serve_pixel_bad v _ hc)
  · rintro t ⟨⟩
    obtain ⟨g, hg, hemit⟩ := emit_regs_update f s
    refine ⟨g, hg, fun rf => congrArg _ ?_⟩
    rw [h, serve_of_frame (s := { s with regs := rf }) hf, hemit]

theorem exec_decodeReq_readsNoRegister (w : ReqWord) (s : State) : ReadsNoRegister (exec (decodeReq w)) s := by
  rw [funext (exec_decodeReq w)]
  exact serve_readsNoRegister _ _ _ _ s

theorem exec_decodeFrame_readsNoRegister {p : Params} {f : Frame} {i : Instr} (h : decodeFrame p f = .ok i) (s : State) :
    ReadsNoRegister (exec i) s := by
  intro t ht
  rw [exec_decodeFrame h] at ht
  cases ht
  exact ⟨applyFrame p f, blindUpdate_applyFrame p f, fun _ => exec_decodeFrame h⟩

/-- Whether a run admits an instruction does not depend on the registers. -/
theorem runInstr_readsNoRegister {i : Instr} {s : State} (h : ReadsNoRegister (exec i) s) : ReadsNoRegister (runInstr i) s := by
  intro t ht
  cases ha : s.admits i with
  | false => simp [runInstr, ha] at ht
  | true =>
    obtain ⟨g, hg, hexec⟩ := h t (runInstr_effect ht).1
    exact ⟨g, hg, fun rf => (runInstr_of_admits (s := { s with regs := rf }) ha).trans (hexec rf)⟩

theorem runHostStep_readsNoRegister (h : HostStep) (s : State) : ReadsNoRegister (runHostStep h) s := by
  cases h with
  | configureLink => exact readsNoRegister_of_keeps rfl fun _ => rfl
  | delay ms =>
    refine readsNoRegister_of_keeps rfl fun rf => ?_
    cases hl : s.link <;> simp [runHostStep, State.wait, hl]
  | request w => exact runInstr_readsNoRegister (exec_decodeReq_readsNoRegister w s)
  | frame f =>
    intro t ht
    cases hd : decodeFrame s.params f with
    | ok i =>
      simp only [runHostStep, hd] at ht ⊢
      exact runInstr_readsNoRegister (exec_decodeFrame_readsNoRegister hd s) t ht
    | error e =>
      simp only [runHostStep, hd] at ht ⊢
      split at ht
      · next hs =>
        cases ht
        exact ⟨id, blindUpdate_id, fun rf => if_pos hs⟩
      · cases ht

theorem step_readsNoRegister (s : State) : ReadsNoRegister step s := by
  cases hp : s.pending with
  | nil => exact readsNoRegister_of_keeps (t := s) (by simp [step, stepState, hp]) fun rf => by simp [step, stepState, hp]
  | cons h rest =>
    intro t ht
    rw [step_of_head hp] at ht
    obtain ⟨g, hg, hrun⟩ := runHostStep_readsNoRegister h s.advance t ht
    exact ⟨g, hg, fun rf => (step_of_head (s := { s with regs := rf }) hp).trans (hrun rf)⟩

/-- Settles O31: by `step_readsNoRegister` one blind update gives the registers after the step from both states; a cell it keeps is
untouched in both, and a cell it overwrites holds the same byte in both. -/
theorem noRequestReadsARegister : Obligations.NoRequestReadsARegister := by
  intro s t rf ht
  obtain ⟨g, hg, hstep⟩ := step_readsNoRegister s t ht
  have hregs : t.regs = g s.regs := congrArg State.regs (Host.Outcome.next.inj (ht.symm.trans (hstep s.regs)))
  refine ⟨_, hstep rf, rfl, fun r => ?_⟩
  rw [hregs]
  obtain hkeep | ⟨v, hv⟩ := hg r
  · exact .inl ⟨hkeep s.regs, hkeep rf⟩
  · exact .inr ((hv rf).trans (hv s.regs).symm)

/-! ## The display in the normal configuration (R35, R36) -/

theorem normalConfig_iff (rf : RegFile) :
    NormalConfig rf = true ↔
      readReg .scanLimit rf = some 0x07#8 ∧ readReg .decodeMode rf = some 0x00#8 ∧
      readReg .displayTest rf = some 0x00#8 ∧ readReg .shutdown rf = some 0x01#8 := by
  simp [NormalConfig, readReg, and_assoc]

/-- In the normal configuration an LED shows its row's bit, or the free value of an unwritten row. -/
theorem lit_of_normalConfig {s : State} (h : NormalConfig s.regs = true) (d b : Fin 8) :
    s.lit d b = (readReg (digitReg d) s.regs).elim (Config.unwrittenLed s.draws d b) (·.getLsbD b.val) := by
  obtain ⟨-, -, -, hshutdown⟩ := (normalConfig_iff s.regs).mp h
  have hon : s.regs.shutdown ≠ none := by rw [show s.regs.shutdown = some 0x01#8 from hshutdown]; simp
  rw [State.lit, if_neg hon, if_pos h]
  cases readReg (digitReg d) s.regs <;> rfl

/-- In the normal configuration the level is that of INTENSITY, or the free value while it is unwritten. -/
theorem level_of_normalConfig {s : State} (h : NormalConfig s.regs = true) :
    s.level = (readReg .intensity s.regs).elim (Config.unwrittenLevel s.draws) levelOf := by
  rw [State.level, if_pos h, readReg]
  cases s.regs.intensity <;> rfl

/-- Settles O41: the four register values are `normalConfig_iff`; what an LED and the level show is read off `lit_of_normalConfig` and
`level_of_normalConfig`, for a written and for an unwritten register. -/
theorem normalConfigurationShowsTheRows : Obligations.NormalConfigurationShowsTheRows := by
  intro s
  refine ⟨normalConfig_iff s.regs, fun h => ⟨fun d b v hrow => ?_, fun d b hrow => ?_, fun v hint => ?_, fun hint => ?_⟩⟩
  · simp [lit_of_normalConfig h, hrow]
  · simp [lit_of_normalConfig h, hrow]
  · simp [level_of_normalConfig h, hint]
  · simp [level_of_normalConfig h, hint]

end Sys2Proof.Machine

/-! ## The registers after a list of host steps (R59)

One step puts at most one frame on the link, with the answer `meetAnswers` gives it, and applies it by that answer. So a run of a list
leaves the registers as `applyAll` of the list's answered frames does, and `readReg_applyAll` says what each register then holds. -/

namespace Sys2Proof.Machine

/-! ### One step of a list -/

/-- A step meets the next answer if it asks for one, and leaves the other answers to the steps after it. -/
theorem meetAnswers_of_step {h : HostStep} {hs rest : List HostStep} {s t : State} (hp : s.pending = h :: rest)
    (e : step s = .next t) (enough : answersNeeded s.params (h :: hs) ≤ s.linkScript.length) :
    meetAnswers s.params (h :: hs) s.linkScript =
      (h, if asksLink s.params h then s.advance.linkAnswer else .ok) :: meetAnswers s.params hs t.linkScript ∧
    answersNeeded s.params hs ≤ t.linkScript.length ∧
    t.linkScript.drop (answersNeeded s.params hs) = s.linkScript.drop (answersNeeded s.params (h :: hs)) := by
  obtain ⟨-, -, hscript, -⟩ := step_host_result hp e
  cases ha : asksLink s.params h with
  | false =>
    rw [answersNeeded_silent ha] at enough ⊢
    simp only [ha, Bool.false_eq_true, if_false] at hscript ⊢
    rw [hscript]
    exact ⟨meetAnswers_silent ha hs _, enough, rfl⟩
  | true =>
    rw [answersNeeded_asking ha] at enough ⊢
    cases hl : s.linkScript with
    | nil => simp [hl] at enough
    | cons a more =>
      have hmeets : s.advance.linkAnswer = a := State.linkAnswer_of_script hl
      simp only [ha, if_true, hl, List.tail_cons] at hscript ⊢
      rw [hscript, hmeets]
      exact ⟨meetAnswers_asking ha hs a more, by simpa [hl] using enough, rfl⟩

/-- A step of a list does to the registers what applying its answered frame does, so the frames still to come give the same end. -/
theorem applyAll_answeredFrames_of_step {h : HostStep} {hs rest : List HostStep} {s t : State} (hp : s.pending = h :: rest)
    (e : step s = .next t) (enough : answersNeeded s.params (h :: hs) ≤ s.linkScript.length) :
    applyAll s.params (answeredFrames s.params (h :: hs) s.linkScript) s.regs =
      applyAll s.params (answeredFrames s.params hs t.linkScript) t.regs := by
  obtain ⟨-, -, -, hregs, -⟩ := step_host_result hp e
  obtain ⟨hmeet, -⟩ := meetAnswers_of_step hp e enough
  rw [answeredFrames, hmeet, hregs]
  cases hf : frameOfStep s.params h <;> simp [answeredFrames, hf]

/-! ### A run of a list -/

/-- A settled run of a list that does not configure the link anew completes. -/
theorem run_hostSteps_completes {rest : List HostStep} :
    ∀ (hs : List HostStep) (s : State), s.pending = hs ++ rest → s.settled = true → (∀ h ∈ hs, h ≠ .configureLink) →
      ∃ t, Host.Core.run Sys2Proof.core hs.length s = .next t := by
  intro hs
  induction hs with
  | nil => exact fun s _ _ _ => ⟨s, run_zero s⟩
  | cons h hs ih =>
    intro s hp hset hno
    obtain ⟨hne, hno'⟩ := List.forall_mem_cons.mp hno
    obtain ⟨u, hu⟩ := step_completes hset
    obtain ⟨-, hpu, -, -, hkeep, -⟩ := step_host_result hp hu
    rw [List.length_cons, run_succ_of_step hu]
    exact ih u hpu (hkeep hne hset) hno'

/-- A run of a list that completes consumes its steps and the answers they ask for, and leaves the registers as its answered frames do. -/
theorem run_hostSteps_result {rest : List HostStep} {t : State} :
    ∀ (hs : List HostStep) (s : State), s.pending = hs ++ rest → answersNeeded s.params hs ≤ s.linkScript.length →
      Host.Core.run Sys2Proof.core hs.length s = .next t →
      t.pending = rest ∧ t.linkScript = s.linkScript.drop (answersNeeded s.params hs) ∧
      t.regs = applyAll s.params (answeredFrames s.params hs s.linkScript) s.regs := by
  intro hs
  induction hs with
  | nil =>
    intro s hp _ hrun
    cases hrun
    exact ⟨hp, rfl, rfl⟩
  | cons h hs ih =>
    intro s hp enough hrun
    obtain ⟨u, hu, hrun'⟩ := step_of_run_succ hrun
    obtain ⟨hparams, hpu, -⟩ := step_host_result hp hu
    obtain ⟨-, enough', hdrop⟩ := meetAnswers_of_step hp hu enough
    have hend := ih u hpu (by rwa [hparams]) hrun'
    rwa [hparams, hdrop, ← applyAll_answeredFrames_of_step hp hu enough] at hend

/-- Settles O32: the run is `run_hostSteps_completes` and `run_hostSteps_result`, and a register after the answered frames is
`readReg_applyAll`. -/
theorem registersHoldTheLastAppliedByte : Obligations.RegistersHoldTheLastAppliedByte := by
  intro hs rest s hp enough
  refine ⟨run_hostSteps_completes hs s hp, fun t hrun => ?_⟩
  obtain ⟨hpending, hscript, hregs⟩ := run_hostSteps_result hs s hp enough hrun
  exact ⟨hpending, hscript, fun r => hregs ▸ readReg_applyAll s.params r s.regs _⟩

end Sys2Proof.Machine

/-! ## The response port (R78) -/

namespace Sys2Proof.Machine

@[simp] theorem State.reset_respPort : State.reset.respPort = none := rfl

theorem State.respValid_of_response {s : State} {e : Resp} (h : s.response = some e) : s.respValid = true := by
  rw [State.respValid, h, Option.isSome_some]

theorem State.respPort_of_response {s : State} {e : Resp} (h : s.response = some e) : s.respPort = some e.code := by
  rw [State.respPort, h, Option.map_some]

/-! ### The response due to a request, check by check (R216) -/

theorem responseDue_reserved {w : ReqWord} (h : reqOp w = 0b11#2) (a : LinkAnswer) :
    responseDue (.request w) a = some .reservedOp := by
  simp [responseDue, h]

theorem responseDue_outOfRange {w : ReqWord} (hop : reqOp w = 0b01#2) (hout : ¬ ((reqA w).toNat < 8 ∧ (reqB w).toNat < 8))
    (a : LinkAnswer) : responseDue (.request w) a = some .invalidCoordinate := by
  have hnotReserved : reqOp w ≠ 0b11#2 := by rw [hop]; decide
  rw [responseDue, if_neg hnotReserved, if_pos ⟨hop, hout⟩]

theorem responseDue_emitted {w : ReqWord} (hnotReserved : reqOp w ≠ 0b11#2)
    (hin : reqOp w = 0b01#2 → (reqA w).toNat < 8 ∧ (reqB w).toNat < 8) (a : LinkAnswer) :
    responseDue (.request w) a = some (if a = .ok then .ok else .transportError) := by
  rw [responseDue, if_neg hnotReserved, if_neg fun ⟨hop, hout⟩ => hout (hin hop)]

/-- Settles O50: M serves the word (`exec_decodeReq`) with the response due to it (`serve_response`), which is one of the three of
`responseDue`, and the port drives its code. -/
theorem responseBitsFollowTheTable : Obligations.ResponseBitsFollowTheTable := by
  refine ⟨State.reset_respPort, fun w s => ⟨_, exec_decodeReq w s, ?valid, fun hop => ?reserved, fun hop hout => ?outOfRange,
    fun hop hin => ?emitted⟩⟩
  case valid => exact State.respValid_of_response (serve_response w s)
  case reserved => exact State.respPort_of_response ((serve_response w s).trans (responseDue_reserved hop _))
  case outOfRange => exact State.respPort_of_response ((serve_response w s).trans (responseDue_outOfRange hop hout _))
  case emitted =>
    rw [State.respPort_of_response ((serve_response w s).trans (responseDue_emitted hop hin _)), apply_ite Resp.code]
    rfl

end Sys2Proof.Machine

/-! ## One write to the register file (R101) -/

namespace Sys2Proof.Machine

/-- Settles O11: at a storage register's address `memWrite` is `writeReg` there (`memWrite_of_reg`), which `readReg_writeReg` reads back in
that register's cell only; NOOP and no register are `memWrite_of_noop` and `memWrite_of_none`. -/
theorem memWriteIsTheWholeEffectOfAFrame : Obligations.MemWriteIsTheWholeEffectOfAFrame := by
  refine fun p a v rf => ⟨fun r h => ?register, fun h => ?noop, fun h => ?none, fun f => ?frame⟩
  case register =>
    rw [memWrite_of_reg h]
    refine ⟨?stored, fun r' hne => ?others⟩
    case stored => rw [readReg_writeReg, if_pos rfl]
    case others => rw [readReg_writeReg, if_neg hne]
  case noop => exact memWrite_of_noop h v rf
  case none => exact memWrite_of_none h v rf
  case frame => rfl

end Sys2Proof.Machine

/-! ## The pixel mapper and the row byte (R142 to R147) -/

namespace Sys2Proof.Machine

/-- For y in 0..7 the field `y[2:0]` is all of y, so the shift is by y itself. -/
theorem rowByte_of_lt {y : Byte} (h : y.toNat < 8) (v : Bit) : rowByte y v = v.setWidth 8 <<< y.toNat := by
  rw [rowByte, BitVec.extractLsb'_toNat, Nat.shiftRight_zero, Nat.mod_eq_of_lt h]

theorem getLsbD_rowByte {y : Byte} (h : y.toNat < 8) (v : Bit) {k : Nat} (hk : k < 8) :
    (rowByte y v).getLsbD k = (decide (k = y.toNat) && v.getLsbD 0) := by
  rw [rowByte_of_lt h, BitVec.getLsbD_shiftLeft, BitVec.getLsbD_setWidth]
  obtain hlt | rfl | hgt := Nat.lt_trichotomy k y.toNat
  · simp [hlt, hlt.ne]
  · simp [hk]
  · rw [BitVec.getLsbD_of_ge v (k - y.toNat) (by omega)]
    simp [hgt.ne']

/-- `v * 2 ^ y` fits in the byte, so the shift loses no bit (R144). -/
theorem toNat_rowByte {y : Byte} (h : y.toNat < 8) (v : Bit) : (rowByte y v).toNat = v.toNat * 2 ^ y.toNat := by
  have hv : v.toNat ≤ 1 := Nat.le_of_lt_succ v.isLt
  have hpow : 2 ^ y.toNat ≤ 2 ^ 7 := Nat.pow_le_pow_right (by decide) (Nat.le_of_lt_succ h)
  have hfits : v.toNat * 2 ^ y.toNat < 2 ^ 8 := by
    calc v.toNat * 2 ^ y.toNat ≤ 1 * 2 ^ 7 := Nat.mul_le_mul hv hpow
      _ < 2 ^ 8 := by decide
  rw [rowByte_of_lt h, BitVec.toNat_shiftLeft, BitVec.toNat_setWidth_of_le (by decide), Nat.shiftLeft_eq,
    Nat.mod_eq_of_lt hfits]

/-- Settles O25: the bits are `getLsbD_rowByte`, the two values are `rowByte_of_lt` at v = 1 and v = 0, and the number is
`toNat_rowByte`. -/
theorem rowByteSetsOneBit : Obligations.RowByteSetsOneBit := by
  refine fun y v hy => ⟨fun k hk => getLsbD_rowByte hy v hk, ?on, ?off, toNat_rowByte hy v⟩
  case on => exact rowByte_of_lt hy 1#1
  case off => exact (rowByte_of_lt hy 0#1).trans (BitVec.zero_shiftLeft _)

/-- The mapper has no entry past x = 7 (R147). -/
theorem digitAddr_of_ge (p : Params) {x : Byte} (h : 8 ≤ x.toNat) : digitAddr p x = none :=
  dif_neg (Nat.not_lt.mpr h)

theorem coordOk_of_x_ge {x : Byte} (h : 8 ≤ x.toNat) (y : Byte) : coordOk x y = false := by
  rw [Bool.eq_false_iff, ne_eq, coordOk_iff]
  exact fun ⟨hx, _⟩ => Nat.not_lt.mpr h hx

/-- M refuses a PIXEL request whose coordinate check fails (R145, R212). -/
theorem exec_pixel_bad (v : Bit) {x y : Byte} (s : State) (h : coordOk x y = false) :
    exec (.pixel v x y) s = .next (s.raise .invalidCoordinate) :=
  congrArg _ (serve_pixel_bad v s h)

/-- Settles O26: the mapper is `digitAddr_of_lt` in range and `digitAddr_of_ge` past it, where the coordinate check fails and the request
only raises its error. -/
theorem mapperHasNoFallback : Obligations.MapperHasNoFallback := by
  refine fun p x => ⟨fun h => digitAddr_of_lt p h, fun h => ⟨digitAddr_of_ge p h, fun v y s => ?refused⟩⟩
  case refused =>
    exact ⟨_, exec_pixel_bad v s (coordOk_of_x_ge h y), State.raise_emitted _ s, State.raise_regs _ s⟩

end Sys2Proof.Machine

/-! ## A list of host steps is never cut short (R180)

Each request of a list adds one response to the host's report, whatever the response is. -/

namespace Sys2Proof.Machine

/-! ### The responses a report gains -/

/-- The later report has gained these responses, one for each request issued in between, and the result has followed them (R180). -/
structure Report.Gains (es : List Resp) (rep rep' : Report) : Prop where
  responses : rep'.responses = rep.responses ++ es
  requests : rep'.requests = rep.requests + es.length
  success : rep'.success = true ↔ rep.success = true ∧ ∀ e ∈ es, e = .ok

theorem Report.Gains.refl (rep : Report) : Report.Gains [] rep rep where
  responses := by simp
  requests := rfl
  success := by simp

theorem Report.Gains.trans {es es' : List Resp} {rep rep' rep'' : Report} (h : Report.Gains es rep rep')
    (h' : Report.Gains es' rep' rep'') : Report.Gains (es ++ es') rep rep'' where
  responses := by rw [h'.responses, h.responses, List.append_assoc]
  requests := by rw [h'.requests, h.requests, List.length_append, Nat.add_assoc]
  success := by rw [h'.success, h.success, List.forall_mem_append, and_assoc]

/-- After a step the report has gained the step's response, if it is a request. -/
theorem Report.gains_after {h : HostStep} {a : LinkAnswer} {t : State} (rep : Report)
    (hresponse : isRequest h = true → t.response = responseDue h a) :
    Report.Gains (responseDue h a).toList rep (rep.after h t) := by
  cases h with
  | configureLink => exact .refl rep
  | delay ms => exact .refl rep
  | frame f => exact ⟨(Report.Gains.refl rep).responses, rfl, (Report.Gains.refl rep).success⟩
  | request w =>
    obtain ⟨e, hdue⟩ : ∃ e, responseDue (.request w) a = some e := ⟨_, rfl⟩
    have ht : t.response = some e := (hresponse rfl).trans hdue
    rw [hdue]
    exact ⟨by simp [Report.after, ht], rfl, by simp [Report.after, ht]⟩

/-! ### The response due to one step of a list -/

theorem isSome_responseDue (h : HostStep) (a : LinkAnswer) : (responseDue h a).isSome = isRequest h := by
  cases h <;> rfl

/-- Exactly the requests have a response, one each. -/
theorem length_responseDue_append (h : HostStep) (a : LinkAnswer) (hs : List HostStep) {es : List Resp}
    (hlen : es.length = (hs.filter isRequest).length) :
    ((responseDue h a).toList ++ es).length = ((h :: hs).filter isRequest).length := by
  cases hdue : responseDue h a <;> simp [← isSome_responseDue h a, hdue, hlen]

/-- A request that forms no frame is refused whatever the link would answer (R216). -/
theorem responseDue_of_silent {p : Params} {h : HostStep} (hsilent : asksLink p h = false) (a a' : LinkAnswer) :
    responseDue h a = responseDue h a' := by
  cases h with
  | configureLink => rfl
  | delay ms => rfl
  | frame f => rfl
  | request w =>
    have hnone : formFrame p (opKind (reqOp w)) (reqV w) (reqA w) (reqB w) = none := by
      simpa [asksLink, frameOfStep] using hsilent
    cases hk : opKind (reqOp w) with
    | raw => simp [hk] at hnone
    | brightness => simp [hk] at hnone
    | reserved =>
      have hop := opKind_eq_reserved.mp hk
      rw [responseDue_reserved hop, responseDue_reserved hop]
    | pixel =>
      have hop := opKind_eq_pixel.mp hk
      have hout : ¬ ((reqA w).toNat < 8 ∧ (reqB w).toNat < 8) := fun ⟨hx, hy⟩ => by
        rw [hk, formFrame_pixel p _ hx hy] at hnone
        cases hnone
      rw [responseDue_outOfRange hop hout, responseDue_outOfRange hop hout]

/-- The responses due to a list: that of its first step, by the answer the link gives next, and those of the steps after it. -/
theorem responsesDue_of_step {h : HostStep} {hs rest : List HostStep} {s t : State} (hp : s.pending = h :: rest)
    (e : step s = .next t) (enough : answersNeeded s.params (h :: hs) ≤ s.linkScript.length) :
    responsesDue s.params (h :: hs) s.linkScript =
      (responseDue h s.advance.linkAnswer).toList ++ responsesDue s.params hs t.linkScript := by
  obtain ⟨hmeet, -⟩ := meetAnswers_of_step hp e enough
  have hdue : responseDue h (if asksLink s.params h then s.advance.linkAnswer else .ok) =
      responseDue h s.advance.linkAnswer := by
    cases ha : asksLink s.params h with
    | true => rfl
    | false => exact responseDue_of_silent ha _ _
  rw [responsesDue, hmeet, ← hdue]
  cases hd : responseDue h (if asksLink s.params h then s.advance.linkAnswer else .ok) <;> simp [responsesDue, hd]

/-! ### The whole list -/

/-- A settled list runs to its end, and the report gains one response for each request: the one due to it, where the link's answers are
fixed. -/
theorem issue_gains_responses :
    ∀ (hs : List HostStep) (s : State) (rep : Report), s.settled = true → (∀ h ∈ hs, h ≠ .configureLink) →
      ∃ t rep' es, issue hs s rep = .next (t, rep') ∧ t.pending = s.pending ∧ Report.Gains es rep rep' ∧
        es.length = (hs.filter isRequest).length ∧
        (answersNeeded s.params hs ≤ s.linkScript.length → es = responsesDue s.params hs s.linkScript) := by
  intro hs
  induction hs with
  | nil => exact fun s rep _ _ => ⟨s, rep, [], rfl, rfl, .refl rep, rfl, fun _ => rfl⟩
  | cons h hs ih =>
    intro s rep hset hno
    obtain ⟨hne, hno'⟩ := List.forall_mem_cons.mp hno
    obtain ⟨u, hu⟩ := step_completes (s := s.present h) hset
    obtain ⟨hparams, hpu, -, -, hkeep, hresponse⟩ := step_host_result rfl hu
    obtain ⟨t, rep', es, hissue, hpending, hgains, hlen, hdue⟩ := ih u (rep.after h u) (hkeep hne hset) hno'
    refine ⟨t, rep', _, (issue_cons_next rep hu).trans hissue, hpending.trans hpu, (rep.gains_after hresponse).trans hgains,
      length_responseDue_append h _ hs hlen, fun enough => ?_⟩
    obtain ⟨-, enough', -⟩ := meetAnswers_of_step (s := s.present h) rfl hu enough
    rw [hdue (by rwa [hparams]), hparams]
    exact (responsesDue_of_step (s := s.present h) rfl hu enough).symm

/-- Settles O48: `issue_gains_responses`, by induction on the list: a settled step completes (`step_completes`), adds its response to the
report (`Report.gains_after`) and leaves the run settled for the steps after it. -/
theorem sequencesAreNeverCutShort : Obligations.SequencesAreNeverCutShort := by
  intro hs s rep hset hno
  obtain ⟨t, rep', es, hissue, hpending, hgains, hlen, hdue⟩ := issue_gains_responses hs s rep hset hno
  exact ⟨t, rep', es, hissue, hpending, hgains.responses, hlen, hlen ▸ hgains.requests, hgains.success, hdue⟩

end Sys2Proof.Machine

/-! ## Lists of register writes and delays (R180)

A list of `WR <name>`, `BRIGHT` and `DELAY` lines, which every sequence is, emits one frame for each register it writes. -/

namespace Sys2Proof.Machine

/-! ### The writes of a list -/

/-- A line that writes a named register, or waits. -/
inductive WritesOrWaits : Asm → Prop where
  | wr (r : Reg) (v : Byte) : WritesOrWaits (wrLine r v)
  | bright (v : Byte) : WritesOrWaits (.bright v)
  | delay (ms : Nat) : WritesOrWaits (.delay ms)

/-- The register a line writes and the byte it writes there, for the lines of `WritesOrWaits`. -/
def lineWrite : Asm → Option (Reg × Byte)
  | .wr (.name (.reg r)) v => some (r, v)
  | .bright v => some (.intensity, v)
  | _ => none

theorem WritesOrWaits.frame_eq {l : Asm} (h : WritesOrWaits l) (p : Params) :
    frameOfStep p (assemble p l) = (lineWrite l).map (writeFrame p) := by
  cases h with
  | wr r v => exact frameOfStep_wrLine p r v
  | bright v => exact frameOfStep_bright p v
  | delay ms => rfl

theorem WritesOrWaits.emitsOrWaits {l : Asm} (h : WritesOrWaits l) (p : Params) : EmitsOrWaits p (assemble p l) := by
  cases h with
  | wr r v => exact .inr ⟨_, _, rfl, frameOfStep_wrLine p r v⟩
  | bright v => exact .inr ⟨_, _, rfl, frameOfStep_bright p v⟩
  | delay ms => exact .inl ⟨ms, rfl⟩

/-- The frames of a list are those of its writes, in order. -/
theorem frames_of_writes {ls : List Asm} (hall : ∀ l ∈ ls, WritesOrWaits l) (p : Params) :
    (ls.map (assemble p)).filterMap (frameOfStep p) = (ls.filterMap lineWrite).map (writeFrame p) := by
  rw [List.filterMap_map, List.map_filterMap]
  exact List.filterMap_congr fun l hl => (hall l hl).frame_eq p

/-- What issuing such a list does in a settled run, for every choice of the link's answers. -/
theorem issueLines_writes {ls : List Asm} (hall : ∀ l ∈ ls, WritesOrWaits l) {answers more : List LinkAnswer} {s : State}
    (hset : s.settled = true) (hlen : answers.length = (ls.filterMap lineWrite).length) (hscript : s.linkScript = answers ++ more) :
    ∃ t rep, issueLines ls s = .next (t, rep) ∧ rep.requests = answers.length ∧
      rep.frames = (ls.filterMap lineWrite).map (writeFrame s.params) ∧ (rep.success = true ↔ ∀ a ∈ answers, a = .ok) ∧
      t.regs = applyAll s.params (rep.frames.zip answers) s.regs := by
  have hemit : ∀ h ∈ ls.map (assemble s.params), EmitsOrWaits s.params h :=
    List.forall_mem_map.mpr fun l hl => (hall l hl).emitsOrWaits s.params
  have hframes := frames_of_writes hall s.params
  obtain ⟨t, rep, hissue, hregs, -, -, -, -, hrequests, hreport, hsuccess⟩ :=
    issue_emitting more _ answers s .start rfl hset hemit (by rw [hframes, List.length_map, hlen]) hscript
  have hrep : rep.frames = (ls.map (assemble s.params)).filterMap (frameOfStep s.params) := hreport
  refine ⟨t, rep, hissue, hrequests.trans (Nat.zero_add _), hrep.trans hframes, ?_, hrep ▸ hregs⟩
  rw [hsuccess]
  exact and_iff_right rfl

/-! ### The frame of a write -/

@[simp] theorem frameData_writeFrame (p : Params) (w : Reg × Byte) : frameData (writeFrame p w) = w.2 := frameData_mkFrame _ _

/-- The frame of a write selects the register written. -/
theorem decodeAddr_writeFrame {p : Params} (hwf : p.wf = true) (w : Reg × Byte) :
    decodeAddr p (frameAddr (writeFrame p w)) = some (.reg w.1) := by
  rw [writeFrame, frameAddr_mkFrame, decodeAddr_pAddr hwf]

theorem writeEnable_writeFrame {p : Params} (hwf : p.wf = true) (w : Reg × Byte) (r : Reg) :
    writeEnable p (frameAddr (writeFrame p w)) r = (w.1 == r) := by
  rw [writeEnable, decodeAddr_writeFrame hwf, Bool.eq_iff_iff]
  simp

/-- Counting the frames of a list is counting its writes. -/
theorem length_filter_writeFrame {p : Params} {P : Frame → Bool} {Q : Reg × Byte → Bool} (h : ∀ w, P (writeFrame p w) = Q w)
    (ws : List (Reg × Byte)) : ((ws.map (writeFrame p)).filter P).length = (ws.filter Q).length := by
  rw [List.filter_map, List.length_map, show P ∘ writeFrame p = Q from funext h]

/-! ### A register after the writes of a list -/

/-- The last byte written to `r`. -/
def lastWrite (r : Reg) (ws : List (Reg × Byte)) : Option Byte := ((ws.filter (·.1 == r)).getLast?).map (·.2)

/-- No answer of the link makes a list write a register that it does not name. -/
theorem lastApplied_of_not_written {p : Params} (hwf : p.wf = true) {r : Reg} {ws : List (Reg × Byte)} (hnot : ∀ w ∈ ws, w.1 ≠ r)
    (answers : List LinkAnswer) : lastApplied p r ((ws.map (writeFrame p)).zip answers) = none := by
  have hempty : (((ws.map (writeFrame p)).zip answers).filter fun x =>
      answerApplied x.2 && writeEnable p (frameAddr x.1) r) = [] := by
    refine List.filter_eq_nil_iff.mpr fun x hx => ?_
    obtain ⟨w, hw, hwx⟩ := List.mem_map.mp (List.of_mem_zip hx).1
    simp [← hwx, writeEnable_writeFrame hwf, hnot w hw]
  rw [lastApplied, hempty]
  rfl

/-- With every answer OK the last applied byte is the last one written. -/
theorem lastApplied_of_all_ok {p : Params} (hwf : p.wf = true) (r : Reg) (ws : List (Reg × Byte)) {answers : List LinkAnswer}
    (hlen : answers.length = ws.length) (hok : ∀ a ∈ answers, a = .ok) :
    lastApplied p r ((ws.map (writeFrame p)).zip answers) = lastWrite r ws := by
  obtain rfl : answers = ws.map fun _ => .ok := by
    rw [List.map_const', ← hlen]
    exact List.eq_replicate_of_mem hok
  rw [List.zip_map', lastApplied, lastWrite, List.filter_map, List.getLast?_map, Option.map_map]
  simp only [Function.comp_def, answerApplied, Bool.true_and, frameData_writeFrame, writeEnable_writeFrame hwf]

end Sys2Proof.Machine

/-! ## SELFTEST (R187 to R190) -/

namespace Sys2Proof.Machine

/-! ### Its lines -/

theorem writesOrWaits_wrAllRows (v : Byte) : ∀ l ∈ wrAllRows v, WritesOrWaits l :=
  List.forall_mem_map.mpr fun d _ => .wr (digitReg d) v

theorem writesOrWaits_sweepStep (rows : List (Fin 8)) (k : Fin 8) : ∀ l ∈ sweepStep rows k, WritesOrWaits l :=
  List.forall_mem_append.mpr ⟨List.forall_mem_map.mpr fun d _ => .wr (digitReg d) _, List.forall_mem_singleton.mpr (.delay tStep)⟩

theorem writesOrWaits_sweepPhase (level : Byte) (rows : List (Fin 8)) : ∀ l ∈ sweepPhase level rows, WritesOrWaits l := by
  have hsteps : ∀ l ∈ (digitIndices.map (sweepStep rows)).flatten, WritesOrWaits l :=
    List.forall_mem_flatten.mpr (List.forall_mem_map.mpr fun k _ => writesOrWaits_sweepStep rows k)
  simp only [sweepPhase, List.forall_mem_append, List.forall_mem_singleton]
  exact ⟨⟨⟨.bright level, hsteps⟩, writesOrWaits_wrAllRows _⟩, .delay Config.tPhase⟩

theorem writesOrWaits_selfTestPhase3 : ∀ l ∈ selfTestPhase3, WritesOrWaits l := by
  simp only [selfTestPhase3, List.forall_mem_append, List.forall_mem_cons]
  exact ⟨⟨writesOrWaits_wrAllRows _, .bright _, .delay _, .bright _, .delay _, .bright _, .delay _, .bright _, .delay _, .bright _,
    .delay _, List.forall_mem_nil _⟩, writesOrWaits_wrAllRows _⟩

theorem writesOrWaits_selfTestLines : ∀ l ∈ selfTestLines, WritesOrWaits l := by
  simp only [selfTestLines, List.forall_mem_append]
  exact ⟨⟨writesOrWaits_sweepPhase _ _, writesOrWaits_sweepPhase _ _⟩, writesOrWaits_selfTestPhase3⟩

/-! ### Its writes -/

/-- The register writes of SELFTEST, in order. -/
def selfTestWrites : List (Reg × Byte) := selfTestLines.filterMap lineWrite

theorem length_selfTestWrites : selfTestWrites.length = 103 := by decide

theorem brightness_selfTestWrites : (selfTestWrites.filter fun w => w.1 == .intensity).length = 7 := by decide

theorem clear_selfTestWrites : (selfTestWrites.filter fun w => w.2 == 0x00#8).length = 24 := by decide

theorem fullOn_selfTestWrites : (selfTestWrites.filter fun w => w.2 == 0xFF#8).length = 8 := by decide

theorem sweep_selfTestWrites :
    (selfTestWrites.filter fun w => w.1 != .intensity && w.2 != 0x00#8 && w.2 != 0xFF#8).length = 64 := by decide

theorem lastWrite_digit_selfTestWrites : ∀ d, lastWrite (digitReg d) selfTestWrites = some 0x00#8 := by decide

theorem lastWrite_intensity_selfTestWrites : lastWrite .intensity selfTestWrites = some 0x01#8 := by decide

/-- SELFTEST never writes these control registers (R190). -/
theorem not_written_selfTestWrites :
    ∀ r ∈ [Reg.scanLimit, .decodeMode, .shutdown, .displayTest], ∀ w ∈ selfTestWrites, w.1 ≠ r := by decide

/-- Settles O47: the run is `issueLines_writes`; its frames are those of `selfTestWrites`, counted there; and a register at the end is
`readReg_applyAll`, by `lastApplied_of_all_ok` where every answer is OK and `lastApplied_of_not_written` where SELFTEST never writes it. -/
theorem selfTestIssues103Requests : Obligations.SelfTestIssues103Requests := by
  intro answers more s hwf hset hlen hscript
  have hanswers : answers.length = selfTestWrites.length := hlen.trans length_selfTestWrites.symm
  obtain ⟨t, rep, hissue, hrequests, hframes, hsuccess, hregs⟩ :=
    issueLines_writes writesOrWaits_selfTestLines hset hanswers hscript
  change rep.frames = selfTestWrites.map (writeFrame s.params) at hframes
  have hkept : ∀ r ∈ [Reg.scanLimit, .decodeMode, .shutdown, .displayTest], readReg r t.regs = readReg r s.regs := fun r hr => by
    rw [hregs, readReg_applyAll, hframes, lastApplied_of_not_written hwf (not_written_selfTestWrites r hr)]
  have hlast : (∀ a ∈ answers, a = .ok) → ∀ {r v}, lastWrite r selfTestWrites = some v → readReg r t.regs = some v :=
    fun hok r v hv => by rw [hregs, readReg_applyAll, hframes, lastApplied_of_all_ok hwf r _ hanswers hok, hv]
  have hselects : ∀ w, (decodeAddr s.params (frameAddr (writeFrame s.params w)) == some (.reg .intensity)) = (w.1 == .intensity) :=
    fun w => writeEnable_writeFrame hwf w .intensity
  refine ⟨t, rep, hissue, hrequests.trans hlen, ?length, ?brightness, ?clear, ?fullOn, ?sweep, hsuccess,
    fun r => hregs ▸ readReg_applyAll s.params r s.regs _,
    fun hok => ⟨fun d => hlast hok (lastWrite_digit_selfTestWrites d), hlast hok lastWrite_intensity_selfTestWrites⟩,
    hkept .scanLimit (by decide), hkept .decodeMode (by decide), hkept .shutdown (by decide), hkept .displayTest (by decide)⟩
  all_goals rw [hframes]
  case length => exact (List.length_map _).trans length_selfTestWrites
  case brightness => exact (length_filter_writeFrame hselects _).trans brightness_selfTestWrites
  case clear => exact (length_filter_writeFrame (fun w => by rw [frameData_writeFrame]) _).trans clear_selfTestWrites
  case fullOn => exact (length_filter_writeFrame (fun w => by rw [frameData_writeFrame]) _).trans fullOn_selfTestWrites
  case sweep => exact (length_filter_writeFrame (fun w => by simp only [bne, hselects, frameData_writeFrame]) _).trans sweep_selfTestWrites

end Sys2Proof.Machine

/-! ## Raising an error (R211, R212, R219) -/

namespace Sys2Proof.Machine

theorem raisedOnly_raise (e : Resp) (s : State) : RaisedOnly e s (s.raise e) where
  response := State.raise_response e s
  emitted := State.raise_emitted e s
  regs := State.raise_regs e s
  params := State.raise_params e s
  link := State.raise_link e s
  linkScript := State.raise_linkScript e s
  draws := State.raise_draws e s
  pending := State.raise_pending e s

/-! ### A raised error leaves no trace in the next request (R219) -/

/-- Emitting overwrites the two outputs that a raised error sets. -/
theorem emit_raise (e : Resp) (f : Frame) (s : State) : (s.raise e).emit f = s.emit f := rfl

/-- A second error overwrites the first. -/
theorem raise_raise (e e' : Resp) (s : State) : (s.raise e).raise e' = s.raise e' := rfl

/-- M's checks look at no earlier response, and every answer overwrites it. -/
theorem serve_raise (e : Resp) (k : ReqKind) (v : Bit) (a b : Byte) (s : State) :
    (s.raise e).serve k v a b = s.serve k v a b := by
  obtain ⟨rfl, h⟩ | ⟨rfl, hc, h⟩ | ⟨f, hf, h⟩ := serve_cases k v a b s <;> rw [h]
  · rw [serve_reserved, raise_raise]
  · rw [serve_pixel_bad v _ hc, raise_raise]
  · rw [serve_of_frame (s := s.raise e) hf, emit_raise]

theorem exec_decodeReq_raise (e : Resp) (w : ReqWord) (s : State) :
    exec (decodeReq w) (s.raise e) = exec (decodeReq w) s := by
  rw [exec_decodeReq, exec_decodeReq, serve_raise]

/-- A request that forms no frame only raises an error. -/
theorem exec_decodeReq_of_no_frame {w : ReqWord} {s : State} (h : frameOfStep s.params (.request w) = none) :
    ∃ e, exec (decodeReq w) s = .next (s.raise e) := by
  obtain ⟨e, -, he⟩ := serve_of_no_frame h
  exact ⟨e, (exec_decodeReq w s).trans (congrArg _ he)⟩

/-- Settles O19: a request that forms no frame only raises its error (`exec_decodeReq_of_no_frame`), and a request after a raised error
is served as from the state before it (`exec_decodeReq_raise`). -/
theorem raisingRecordsOnlyTheResponse : Obligations.RaisingRecordsOnlyTheResponse := by
  intro w s t e hnone ht hresponse
  obtain ⟨e', he'⟩ := exec_decodeReq_of_no_frame hnone
  obtain rfl : s.raise e' = t := Host.Outcome.next.inj (he'.symm.trans ht)
  obtain rfl : e' = e := Option.some.inj hresponse
  exact ⟨raisedOnly_raise e' s, fun w' => exec_decodeReq_raise e' w' s⟩

/-! ### Who raises INVALID_COORDINATE (R212) -/

theorem coordOk_eq_false_iff (x y : Byte) : coordOk x y = false ↔ ¬ (x.toNat < 8 ∧ y.toNat < 8) := by
  rw [← coordOk_iff, Bool.not_eq_true]

/-- The link's answer is never reported as a coordinate error. -/
theorem answerResp_ne_invalidCoordinate (answer : LinkAnswer) : answerResp answer ≠ .invalidCoordinate := by
  cases answer with
  | ok => exact nofun
  | error applied => exact nofun

/-- A request whose frame goes out does not answer INVALID_COORDINATE. -/
theorem emit_response_ne_invalidCoordinate (f : Frame) (s : State) : (s.emit f).response ≠ some .invalidCoordinate :=
  fun h => answerResp_ne_invalidCoordinate s.linkAnswer (Option.some.inj h)

theorem exec_pixel_inRange (v : Bit) {x y : Byte} (s : State) (hx : x.toNat < 8) (hy : y.toNat < 8) :
    exec (.pixel v x y) s =
      .next (s.emit (mkFrame (s.params.pAddr.of (.reg (digitReg ⟨x.toNat, hx⟩))) (rowByte y v))) :=
  congrArg _ (serve_pixel v s hx hy)

/-- Settles O18: PIXEL out of range is `exec_pixel_bad`; PIXEL in range, RAW and BRIGHTNESS emit a frame, so they answer what the link
gives (`emit_response_ne_invalidCoordinate`); the reserved kind raises its own error. -/
theorem onlyPixelRaisesInvalidCoordinate : Obligations.OnlyPixelRaisesInvalidCoordinate := by
  refine fun v a b s => ⟨fun hout => ?outOfRange, fun ⟨hx, hy⟩ => ?inRange, ?raw, ?brightness, ?reserved⟩
  case outOfRange => exact ⟨_, exec_pixel_bad v s ((coordOk_eq_false_iff a b).mpr hout), raisedOnly_raise _ s⟩
  case inRange => exact ⟨_, exec_pixel_inRange v s hx hy, emit_response_ne_invalidCoordinate _ s⟩
  case raw => exact ⟨_, congrArg Host.Outcome.next (serve_raw v a b s), emit_response_ne_invalidCoordinate _ s⟩
  case brightness => exact ⟨_, congrArg Host.Outcome.next (serve_brightness v a b s), emit_response_ne_invalidCoordinate _ s⟩
  case reserved => exact ⟨_, congrArg Host.Outcome.next (serve_reserved v a b s), by simp⟩

end Sys2Proof.Machine

/-! ## The encoder and the decoders (R71 to R81)

Every command is `commandOf` of its name and its data byte, and every request is `requestOf` of its kind and its fields; the encoder and
the decoders are said once for each of the two. -/

namespace Sys2Proof

theorem encode_commandOf (p : Params) (n : RegName) (d : Byte) : encode p (commandOf n d) = .cmd16 (mkFrame (p.pAddr.of n) d) := by
  cases n with
  | noop => rfl
  | reg r => cases r <;> rfl

theorem decode_encode_commandOf {p : Params} (h : p.wf = true) (n : RegName) (d : Byte) :
    decode p (encode p (commandOf n d)) = .ok (commandOf n d) := by
  rw [encode_commandOf]
  exact decodeFrame_pAddr h n d

/-- The request of a kind and its three fields. -/
def requestOf : ReqKind → Bit → Byte → Byte → Instr
  | .raw, v, a, b => .raw v a b
  | .pixel, v, a, b => .pixel v a b
  | .brightness, v, a, b => .brightness v a b
  | .reserved, v, a, b => .reserved v a b

theorem decodeReq_eq_requestOf (w : ReqWord) : decodeReq w = requestOf (opKind (reqOp w)) (reqV w) (reqA w) (reqB w) := by
  unfold decodeReq requestOf
  cases opKind (reqOp w) <;> rfl

theorem encode_requestOf (p : Params) (k : ReqKind) (v : Bit) (a b : Byte) :
    encode p (requestOf k v a b) = .req19 (mkReq (kindOp k) v a b) := by
  cases k <;> rfl

/-- A formed request word decodes to the request of its kind and its fields. -/
theorem decodeReq_mkReq (k : ReqKind) (v : Bit) (a b : Byte) : decodeReq (mkReq (kindOp k) v a b) = requestOf k v a b := by
  rw [decodeReq_eq_requestOf, reqOp_mkReq, reqV_mkReq, reqA_mkReq, reqB_mkReq, opKind_kindOp]

theorem decode_encode_requestOf (p : Params) (k : ReqKind) (v : Bit) (a b : Byte) :
    decode p (encode p (requestOf k v a b)) = .ok (requestOf k v a b) := by
  rw [encode_requestOf]
  exact congrArg Except.ok (decodeReq_mkReq k v a b)

/-- No bit of a request word is lost (R81). -/
theorem encode_decodeReq (p : Params) (w : ReqWord) : encode p (decodeReq w) = .req19 w := by
  rw [decodeReq_eq_requestOf, encode_requestOf, kindOp_opKind, mkReq_fields]

/-- Settles O1: a command is `commandOf` of its name, whose address decodes to it (`decode_encode_commandOf`); a request is `requestOf` of
its kind, whose word has its fields (`decode_encode_requestOf`). -/
theorem decodeOfEncodeIsTheInstruction : Obligations.DecodeOfEncodeIsTheInstruction := by
  intro p hwf i
  cases i with
  | wrNoop d => exact decode_encode_commandOf hwf .noop d
  | wrDigit0 d => exact decode_encode_commandOf hwf (.reg .digit0) d
  | wrDigit1 d => exact decode_encode_commandOf hwf (.reg .digit1) d
  | wrDigit2 d => exact decode_encode_commandOf hwf (.reg .digit2) d
  | wrDigit3 d => exact decode_encode_commandOf hwf (.reg .digit3) d
  | wrDigit4 d => exact decode_encode_commandOf hwf (.reg .digit4) d
  | wrDigit5 d => exact decode_encode_commandOf hwf (.reg .digit5) d
  | wrDigit6 d => exact decode_encode_commandOf hwf (.reg .digit6) d
  | wrDigit7 d => exact decode_encode_commandOf hwf (.reg .digit7) d
  | wrDecodeMode d => exact decode_encode_commandOf hwf (.reg .decodeMode) d
  | wrIntensity d => exact decode_encode_commandOf hwf (.reg .intensity) d
  | wrScanLimit d => exact decode_encode_commandOf hwf (.reg .scanLimit) d
  | wrShutdown d => exact decode_encode_commandOf hwf (.reg .shutdown) d
  | wrDisplayTest d => exact decode_encode_commandOf hwf (.reg .displayTest) d
  | raw v a b => exact decode_encode_requestOf p .raw v a b
  | pixel v x y => exact decode_encode_requestOf p .pixel v x y
  | brightness v a b => exact decode_encode_requestOf p .brightness v a b
  | reserved v a b => exact decode_encode_requestOf p .reserved v a b

/-- Settles O2: `OP` gives the kind, so `decodeReq_eq_requestOf` gives the request; encoding it again is `encode_decodeReq`. -/
theorem requestWordsDecodeByOpAlone : Obligations.RequestWordsDecodeByOpAlone := by
  refine fun w => ⟨fun hop => ?raw, fun hop => ?pixel, fun hop => ?brightness, fun hop => ?reserved, fun p => encode_decodeReq p w⟩
  all_goals rw [decodeReq_eq_requestOf, hop]; rfl

end Sys2Proof

/-! ## The registers and the outputs after one step (R52, R53, R78, R101) -/

namespace Sys2Proof.Machine

/-! ### One register after one step -/

theorem writeEnable_iff {p : Params} {a : Byte} {r : Reg} : writeEnable p a r = true ↔ decodeAddr p a = some (.reg r) :=
  beq_iff_eq

/-- A register after a frame: the frame's data byte where the write enable is set, else as before (R102). -/
theorem readReg_applyFrame (p : Params) (f : Frame) (rf : RegFile) (r : Reg) :
    readReg r (applyFrame p f rf) = if writeEnable p (frameAddr f) r then some (frameData f) else readReg r rf :=
  readReg_memWrite p (frameAddr f) (frameData f) rf r

/-- With no host step presented the machine is idle. -/
theorem step_of_idle {s : State} (h : s.pending = []) : step s = .next s := by
  simp [step, stepState, h]

/-- A step leaves the registers as they were or applies the frame of its host step. -/
theorem step_regs {h : HostStep} {rest : List HostStep} {s t : State} (hp : s.pending = h :: rest) (e : step s = .next t) :
    t.regs = s.regs ∨ ∃ f, frameOfStep s.params h = some f ∧ t.regs = applyFrame s.params f s.regs := by
  obtain ⟨-, -, -, hregs, -⟩ := step_host_result hp e
  cases hf : frameOfStep s.params h with
  | none => exact .inl (by rw [hregs, hf])
  | some f =>
    rw [hf] at hregs
    exact (ite_eq_or_eq _ (applyFrame s.params f s.regs) s.regs).symm.imp hregs.trans fun happlied => ⟨f, rfl, hregs.trans happlied⟩

/-- A step leaves a register as it was, unless its frame selects the register: then the register may hold the frame's data byte. -/
theorem step_readReg {h : HostStep} {rest : List HostStep} {s t : State} (hp : s.pending = h :: rest) (e : step s = .next t) (r : Reg) :
    readReg r t.regs = readReg r s.regs ∨
    ∃ f, frameOfStep s.params h = some f ∧ decodeAddr s.params (frameAddr f) = some (.reg r) ∧
      readReg r t.regs = some (frameData f) := by
  obtain hregs | ⟨f, hf, hregs⟩ := step_regs hp e
  · exact .inl (congrArg (readReg r) hregs)
  · rw [hregs, readReg_applyFrame]
    by_cases hw : writeEnable s.params (frameAddr f) r
    · exact .inr ⟨f, hf, writeEnable_iff.mp hw, if_pos hw⟩
    · exact .inl (if_neg hw)

/-- Settles O30: `step_readReg` for each register; two registers that change are both the one the frame's address decodes to. -/
theorem aStepWritesAtMostOneRegister : Obligations.AStepWritesAtMostOneRegister := by
  intro s t e
  cases hp : s.pending with
  | nil =>
    obtain rfl : s = t := Host.Outcome.next.inj ((step_of_idle hp).symm.trans e)
    exact ⟨fun r => .inl rfl, fun r r' hr => absurd rfl hr⟩
  | cons h rest =>
    refine ⟨fun r => (step_readReg hp e r).imp_right fun ⟨f, hf⟩ => ⟨h, rest, f, rfl, hf⟩, fun r r' hr hr' => ?_⟩
    obtain ⟨f, hf, hsel, -⟩ := (step_readReg hp e r).resolve_left hr
    obtain ⟨f', hf', hsel', -⟩ := (step_readReg hp e r').resolve_left hr'
    obtain rfl : f = f' := Option.some.inj (hf.symm.trans hf')
    exact RegName.reg.inj (Option.some.inj (hsel.symm.trans hsel'))

/-! ### The invariant -/

theorem outputsAgree_congr {s t : State} (hresponse : t.response = s.response) (hemitted : t.emitted = s.emitted) :
    t.OutputsAgree = s.OutputsAgree := by
  rw [State.OutputsAgree, hresponse, hemitted, State.OutputsAgree]

theorem outputsAgree_raise {e : Resp} (h : e = .reservedOp ∨ e = .invalidCoordinate) (s : State) :
    (s.raise e).OutputsAgree = true := by
  obtain rfl | rfl := h <;> rfl

/-- The link's answer is reported as OK or TRANSPORT_ERROR, and the frame is out. -/
theorem outputsAgree_emit (f : Frame) (s : State) : (s.emit f).OutputsAgree = true := by
  rw [State.OutputsAgree, State.emit_response, State.emit_emitted]
  cases s.linkAnswer <;> rfl

theorem instrEffect_keeps_outputsAgree {s t : State} (h : InstrEffect s t) (hs : s.OutputsAgree = true) : t.OutputsAgree = true := by
  cases h with
  | unchanged => exact hs
  | wrote r v => exact hs
  | refused e he => exact outputsAgree_raise he s
  | emitted f => exact outputsAgree_emit f s

theorem step_keeps_outputsAgree {s t : State} (e : step s = .next t) (hs : s.OutputsAgree = true) : t.OutputsAgree = true := by
  cases step_effect e with
  | idle => exact hs
  | configured => exact hs
  | waited ms => rwa [outputsAgree_congr (State.wait_response ms _) (State.wait_emitted ms _)]
  | ran _ he => exact instrEffect_keeps_outputsAgree he hs

theorem State.inv_iff (s : State) : s.Inv = true ↔ s.params.wf = true ∧ s.OutputsAgree = true :=
  Bool.and_eq_true_iff

/-- Settles O37: no step changes the parameters (`step_params`), and each effect a step can have leaves the outputs in agreement
(`step_keeps_outputsAgree`). -/
theorem everyStepKeepsTheInvariant : Obligations.EveryStepKeepsTheInvariant := by
  intro s t hinv e
  obtain ⟨hwf, hagree⟩ := s.inv_iff.mp hinv
  exact t.inv_iff.mpr ⟨by rwa [step_params e], step_keeps_outputsAgree e hagree⟩

/-- Settles O38: `State.inv_iff`, with the default parameters admitted and both outputs none. -/
theorem powerUpMeetsTheInvariant : Obligations.PowerUpMeetsTheInvariant :=
  State.reset.inv_iff.mpr ⟨Params.default_wf, rfl⟩

/-! ### Dark until SHUTDOWN is written (R37) -/

/-- SHUTDOWN holds ⊥, and no frame still to come selects it. -/
def ShutdownUnwritten (s : State) : Prop :=
  s.regs.shutdown = none ∧
  ∀ h ∈ s.pending, ∀ f, frameOfStep s.params h = some f → decodeAddr s.params (frameAddr f) ≠ some (.reg .shutdown)

theorem step_keeps_shutdownUnwritten {s t : State} (hs : ShutdownUnwritten s) (e : step s = .next t) : ShutdownUnwritten t := by
  obtain ⟨hdark, hnone⟩ := hs
  cases hp : s.pending with
  | nil =>
    obtain rfl : s = t := Host.Outcome.next.inj ((step_of_idle hp).symm.trans e)
    exact ⟨hdark, hnone⟩
  | cons h rest =>
    rw [hp] at hnone
    obtain ⟨hhead, hrest⟩ := List.forall_mem_cons.mp hnone
    obtain ⟨hparams, hpending, -⟩ := step_host_result hp e
    refine ⟨?_, by rwa [hparams, hpending]⟩
    obtain hkept | ⟨f, hf, hsel, -⟩ := step_readReg hp e .shutdown
    · exact hkept.trans hdark
    · exact absurd hsel (hhead f hf)

theorem lit_of_shutdown_unwritten {s : State} (h : s.regs.shutdown = none) (d b : Fin 8) : s.lit d b = false :=
  if_pos h

/-- Settles O42: every step keeps `ShutdownUnwritten`, so a run does (`run_keeps`), and while SHUTDOWN holds ⊥ no LED is lit. -/
theorem darkUntilShutdownIsWritten : Obligations.DarkUntilShutdownIsWritten := by
  intro n s t hdark hnone hrun
  obtain ⟨hend, -⟩ := run_keeps (P := ShutdownUnwritten) (fun _ _ => step_keeps_shutdownUnwritten) n s t ⟨hdark, hnone⟩ hrun
  exact lit_of_shutdown_unwritten hend

end Sys2Proof.Machine

/-! ## The address decoder, the wire and the assembler (R50, R57, R82, R100) -/

namespace Sys2Proof

/-- The decoder answers a name exactly when the name's address equals the compared bits (R100). -/
theorem decodeAddr_eq_some_iff {p : Params} (h : p.wf = true) {a : Byte} {n : RegName} :
    decodeAddr p a = some n ↔ p.pAddr.of n = compareBits p a :=
  ⟨decodeAddr_sound, decodeAddr_of_match h⟩

theorem decodeAddr_eq_none_iff {p : Params} (h : p.wf = true) {a : Byte} :
    decodeAddr p a = none ↔ ∀ n, p.pAddr.of n ≠ compareBits p a := by
  simp only [Option.eq_none_iff_forall_ne_some, ne_eq, decodeAddr_eq_some_iff h]

/-- Settles O3: the two equivalences are `decodeAddr_eq_some_iff` and `decodeAddr_eq_none_iff`; the decoder is a function, so it never
answers two names. -/
theorem decodeMatchesTheComparedBits : Obligations.DecodeMatchesTheComparedBits :=
  fun _ hwf _ => ⟨fun _ => decodeAddr_eq_some_iff hwf, decodeAddr_eq_none_iff hwf, fun _ _ hn hm => Option.some.inj (hn.symm.trans hm)⟩

/-! ### The default address map -/

theorem decodeAddr_default {a : Byte} {n : RegName} (h : PAddr.default.of n = a) : decodeAddr Params.default a = some n :=
  decodeAddr_of_match Params.default_wf h

/-- The DIGIT registers stand at 0x01 to 0x08, in order. -/
theorem pAddr_default_digitReg (d : Fin 8) : PAddr.default.of (.reg (Machine.digitReg d)) = BitVec.ofNat 8 (d.val + 1) := by
  revert d; decide

/-- The four compared bits are the low nibble. -/
theorem compareBits_defaultFour (a : Byte) : compareBits Params.defaultFour a = a &&& 0x0F#8 := by
  apply BitVec.eq_of_toNat_eq
  calc (compareBits Params.defaultFour a).toNat = a.toNat % 2 ^ 4 % 2 ^ 8 := by simp [compareBits, Params.defaultFour]
    _ = a.toNat % 2 ^ 4 := by omega
    _ = (a &&& 0x0F#8).toNat := (Nat.and_two_pow_sub_one_eq_mod a.toNat 4).symm

/-- Settles O4: each name is found at its own address (`decodeAddr_default`), and an address that is no name's selects nothing; with four
bits the decoder searches the same addresses for the low nibble. -/
theorem defaultAddressMap : Obligations.DefaultAddressMap := by
  refine fun a => ⟨?eight, ?four⟩
  case four => rw [decodeAddr, compareBits_defaultFour]; rfl
  case eight =>
    split_ifs with h0 hd h9 hA hB hC hF
    · exact decodeAddr_default h0.symm
    · refine decodeAddr_default ((pAddr_default_digitReg _).trans ?_)
      rw [Nat.sub_add_cancel hd.1, BitVec.ofNat_toNat, BitVec.setWidth_eq]
    · exact decodeAddr_default h9.symm
    · exact decodeAddr_default hA.symm
    · exact decodeAddr_default hB.symm
    · exact decodeAddr_default hC.symm
    · exact decodeAddr_default hF.symm
    · refine (decodeAddr_eq_none_iff Params.default_wf).mpr fun n hn => ?_
      obtain rfl : PAddr.default.of n = a := hn
      cases n with
      | noop => exact h0 rfl
      | reg r =>
        cases r with
        | decodeMode => exact h9 rfl
        | intensity => exact hA rfl
        | scanLimit => exact hB rfl
        | shutdown => exact hC rfl
        | displayTest => exact hF rfl
        | digit0 | digit1 | digit2 | digit3 | digit4 | digit5 | digit6 | digit7 => exact hd (by decide)

/-- Settles O5: each word is evaluated. -/
theorem writtenOutWordsDecode : Obligations.WrittenOutWordsDecode := by
  unfold Obligations.WrittenOutWordsDecode
  decide

/-! ### The wire -/

theorem frameBits_eq (f : Frame) : frameBits f = (List.range 16).map fun k => f.getLsbD (15 - k) := by
  simp [frameBits, byteBits, frameAddr, frameData, List.range_succ, BitVec.getLsbD_extractLsb']

/-- Settles O6: the bit order is `frameBits_eq`, and a frame is its two bytes (`mkFrame_fields`). -/
theorem frameIsSentAddressByteFirst : Obligations.FrameIsSentAddressByteFirst := by
  refine fun f => ⟨rfl, fun k hk => ?_, rfl, rfl, congrArg Except.ok (mkFrame_fields f)⟩
  rw [frameBits_eq, List.getElem?_map, List.getElem?_range hk, Option.map_some]

/-! ### The assembler -/

/-- Settles O7: each mnemonic forms the word of its kind and its operands, which decodes to that request (`decodeReq_mkReq`). -/
theorem assembledLinesDecodeToTheirRequest : Obligations.AssembledLinesDecodeToTheirRequest :=
  fun p => ⟨fun n v => ⟨_, rfl, decodeReq_mkReq .raw 0#1 (p.pAddr.of n) v⟩, fun a v => ⟨_, rfl, decodeReq_mkReq .raw 0#1 a v⟩,
    fun x y v => ⟨_, rfl, decodeReq_mkReq .pixel v x y⟩, fun v => ⟨_, rfl, decodeReq_mkReq .brightness 0#1 0#8 v⟩, fun _ => rfl,
    fun _ => rfl⟩

end Sys2Proof

/-! ## The commands at D (R102, R104 to R117) -/

namespace Sys2Proof.Machine

/-- Settles O8: WR.NOOP is the command of the name without a register (`exec_commandOf_noop`). -/
theorem noopCommandChangesNothing : Obligations.NoopCommandChangesNothing := exec_commandOf_noop

theorem wroteOnly_write (r : Reg) (v : Byte) (s : State) : WroteOnly r v s (s.write r v) where
  value := by rw [State.write_regs, readReg_writeReg, if_pos rfl]
  others r' hne := by rw [State.write_regs, readReg_writeReg, if_neg hne]
  rest := ⟨rfl, rfl, rfl, rfl, rfl, rfl, rfl⟩

/-- The command of a storage register writes it and nothing else. -/
theorem commandOf_wroteOnly (r : Reg) (d : Byte) (s : State) : ∃ t, exec (commandOf (.reg r) d) s = .next t ∧ WroteOnly r d s t :=
  ⟨_, exec_commandOf_reg r d s, wroteOnly_write r d s⟩

/-- Settles O9: `commandOf_wroteOnly` for each row register. -/
theorem digitCommandsWriteTheirRow : Obligations.DigitCommandsWriteTheirRow :=
  fun d s => ⟨commandOf_wroteOnly .digit0 d s, commandOf_wroteOnly .digit1 d s, commandOf_wroteOnly .digit2 d s,
    commandOf_wroteOnly .digit3 d s, commandOf_wroteOnly .digit4 d s, commandOf_wroteOnly .digit5 d s, commandOf_wroteOnly .digit6 d s,
    commandOf_wroteOnly .digit7 d s⟩

/-- Settles O10: `commandOf_wroteOnly` for each control register. -/
theorem controlCommandsStoreTheByteUnmasked : Obligations.ControlCommandsStoreTheByteUnmasked :=
  fun d s => ⟨commandOf_wroteOnly .decodeMode d s, commandOf_wroteOnly .intensity d s, commandOf_wroteOnly .scanLimit d s,
    commandOf_wroteOnly .shutdown d s, commandOf_wroteOnly .displayTest d s⟩

/-! ### The write enables -/

theorem writeEnable_of_no_register {p : Params} {a : Byte} (h : decodeAddr p a = some .noop ∨ decodeAddr p a = none) (r : Reg) :
    writeEnable p a r = false := by
  obtain h | h := h <;> rw [writeEnable, h] <;> rfl

/-- Settles O12: a set enable names the decoded register (`writeEnable_iff`), so there is at most one, and none where the decoder answers
no register; the data path is `readReg_applyFrame`. -/
theorem writeEnablesAreOneHot : Obligations.WriteEnablesAreOneHot := by
  refine fun p f rf => ⟨fun r r' hr hr' => ?_, writeEnable_of_no_register, readReg_applyFrame p f rf⟩
  exact RegName.reg.inj (Option.some.inj ((writeEnable_iff.mp hr).symm.trans (writeEnable_iff.mp hr')))

/-- Settles O13: each register holds the data byte or its old content, both times by the same write enable (`readReg_applyFrame`). -/
theorem applyingAFrameIsIdempotent : Obligations.ApplyingAFrameIsIdempotent := by
  refine fun p f rf => RegFile.ext_read fun r => ?_
  cases hw : writeEnable p (frameAddr f) r <;> simp [readReg_applyFrame, hw]

end Sys2Proof.Machine

/-! ## The requests at M (R103, R145, R160, R215) -/

namespace Sys2Proof.Machine

theorem exec_raw (v : Bit) (a b : Byte) (s : State) : exec (.raw v a b) s = .next (s.emit (mkFrame a b)) :=
  congrArg Host.Outcome.next (serve_raw v a b s)

theorem exec_brightness (v : Bit) (a b : Byte) (s : State) :
    exec (.brightness v a b) s = .next (s.emit (mkFrame (s.params.pAddr.of (.reg .intensity)) b)) :=
  congrArg Host.Outcome.next (serve_brightness v a b s)

theorem exec_reserved (v : Bit) (a b : Byte) (s : State) : exec (.reserved v a b) s = .next (s.raise .reservedOp) :=
  congrArg Host.Outcome.next (serve_reserved v a b s)

/-- A request word that forms a frame emits it. -/
theorem exec_decodeReq_of_frame {w : ReqWord} {f : Frame} {s : State} (h : frameOfStep s.params (.request w) = some f) :
    exec (decodeReq w) s = .next (s.emit f) :=
  (exec_decodeReq w s).trans (congrArg _ (serve_of_frame h))

/-! ### What the link does with a frame (R52) -/

theorem linkTook_emit (f : Frame) (s : State) : LinkTook f s (s.emit f) where
  emitted := State.emit_emitted f s
  onOk h := by simp [h, answerResp, answerApplied]
  onErrorApplied h := by simp [h, answerResp, answerApplied]
  onErrorDropped h := by simp [h, answerResp, answerApplied]
  params := State.emit_params f s
  link := State.emit_link f s
  linkScript := State.emit_linkScript f s
  draws := State.emit_draws f s
  pending := State.emit_pending f s

/-- A frame at a register's own address changes that register, when it is applied, and no other. -/
theorem readReg_emit_pAddr {s : State} (hwf : s.params.wf = true) (r : Reg) (v : Byte) (r' : Reg) :
    readReg r' (s.emit (mkFrame (s.params.pAddr.of (.reg r)) v)).regs =
      if answerApplied s.linkAnswer = true ∧ r' = r then some v else readReg r' s.regs := by
  rw [State.emit_regs, applyFrame_pAddr hwf]
  cases answerApplied s.linkAnswer <;> simp

theorem emit_pAddr_others {s : State} (hwf : s.params.wf = true) {r : Reg} (v : Byte) {r' : Reg} (hne : r' ≠ r) :
    readReg r' (s.emit (mkFrame (s.params.pAddr.of (.reg r)) v)).regs = readReg r' s.regs := by
  rw [readReg_emit_pAddr hwf, if_neg fun h => hne h.2]

theorem emit_pAddr_applied {s : State} (hwf : s.params.wf = true) (happlied : answerApplied s.linkAnswer = true) (r : Reg) (v : Byte) :
    readReg r (s.emit (mkFrame (s.params.pAddr.of (.reg r)) v)).regs = some v := by
  rw [readReg_emit_pAddr hwf, if_pos ⟨happlied, rfl⟩]

/-- A frame answered OK has been applied (R52). -/
theorem emit_applied_of_ok {f : Frame} {s : State} (h : (s.emit f).response = some .ok) : answerApplied s.linkAnswer = true := by
  have hok : answerResp s.linkAnswer = .ok := Option.some.inj h
  cases ha : s.linkAnswer with
  | ok => rfl
  | error applied => rw [ha] at hok; cases hok

/-! ### Each request kind -/

/-- Settles O14: `exec_raw`, and the link takes the frame as `linkTook_emit` says. -/
theorem rawForwardsItsFrame : Obligations.RawForwardsItsFrame :=
  fun v a b s => ⟨_, exec_raw v a b s, linkTook_emit _ s⟩

/-- Settles O15: `exec_pixel_inRange`, with the frame at the row's own address. -/
theorem pixelWritesOneRow : Obligations.PixelWritesOneRow :=
  fun v _ _ s hx hy => ⟨_, exec_pixel_inRange v s hx hy, linkTook_emit _ s,
    fun hwf happlied => ⟨emit_pAddr_applied hwf happlied _ _, fun _ => emit_pAddr_others hwf _⟩⟩

/-- Settles O16: `exec_brightness`, with the frame at INTENSITY's own address. -/
theorem brightnessWritesIntensity : Obligations.BrightnessWritesIntensity :=
  fun v a b s => ⟨_, exec_brightness v a b s, linkTook_emit _ s,
    fun hwf happlied => ⟨emit_pAddr_applied hwf happlied _ _, fun _ => emit_pAddr_others hwf _⟩⟩

/-- Settles O17: `exec_reserved`, and raising records only the response (`raisedOnly_raise`). -/
theorem reservedKindAnswersReservedOp : Obligations.ReservedKindAnswersReservedOp :=
  fun v a b s => ⟨_, exec_reserved v a b s, raisedOnly_raise _ s⟩

/-- Settles O20: M serves the word (`exec_decodeReq`) with the response due to it (`serve_response`), by the first check that applies. -/
theorem responseFollowsTheCheckOrder : Obligations.ResponseFollowsTheCheckOrder :=
  fun w s => ⟨_, exec_decodeReq w s, fun hop => (serve_response w s).trans (responseDue_reserved hop _),
    fun ⟨hop, hout⟩ => (serve_response w s).trans (responseDue_outOfRange hop hout _),
    fun ⟨hop, hin⟩ => (serve_response w s).trans (responseDue_emitted hop hin _)⟩

/-- Settles O21: the frame is emitted whatever the link answers (`exec_decodeReq_of_frame`), and each answer's clause of `LinkTook` says
what it gives. -/
theorem everyLinkOutcomeIsAdmitted : Obligations.EveryLinkOutcomeIsAdmitted := by
  intro w f s more hf
  refine ⟨⟨_, exec_decodeReq_of_frame hf, ?ok⟩, ⟨_, exec_decodeReq_of_frame hf, ?applied⟩,
    ⟨_, exec_decodeReq_of_frame hf, ?dropped⟩⟩
  case ok =>
    obtain ⟨hresponse, hregs⟩ := (linkTook_emit f { s with linkScript := .ok :: more }).onOk rfl
    exact ⟨hresponse, rfl, hregs⟩
  case applied =>
    obtain ⟨hresponse, hregs⟩ := (linkTook_emit f { s with linkScript := .error true :: more }).onErrorApplied rfl
    exact ⟨hresponse, rfl, hregs⟩
  case dropped =>
    obtain ⟨hresponse, hregs⟩ := (linkTook_emit f { s with linkScript := .error false :: more }).onErrorDropped rfl
    exact ⟨hresponse, rfl, hregs⟩

/-- Settles O22: the results of `exec_raw`, `exec_brightness` and `exec_reserved` do not name the ignored fields. -/
theorem ignoredFieldsHaveNoEffect : Obligations.IgnoredFieldsHaveNoEffect :=
  fun v v' a a' b b' s => ⟨(exec_raw v a b s).trans (exec_raw v' a b s).symm,
    (exec_brightness v a b s).trans (exec_brightness v' a' b s).symm, (exec_reserved v a b s).trans (exec_reserved v' a' b' s).symm⟩

/-- Settles O23: both requests emit the frame of INTENSITY's address and the byte. -/
theorem rawToIntensityIsBrightness : Obligations.RawToIntensityIsBrightness :=
  fun v v' a b s => (exec_raw v _ b s).trans (exec_brightness v' a b s).symm

/-- Settles O24: an applied frame acts as the command it decodes to (`exec_decodeFrame`), and as nothing if it decodes to none
(`applyFrame_of_undecoded`); a frame that is not applied changes no register. -/
theorem rawActsAsTheDecodedCommand : Obligations.RawActsAsTheDecodedCommand := by
  intro v a b s t e
  obtain rfl : s.emit (mkFrame a b) = t := Host.Outcome.next.inj ((exec_raw v a b s).symm.trans e)
  rw [State.emit_regs]
  refine ⟨fun i hi happlied => ⟨_, exec_decodeFrame hi, if_pos happlied⟩, fun e' he => ?undecoded,
    fun hdropped => by simp [hdropped]⟩
  case undecoded => rw [applyFrame_of_undecoded he, ite_self]

/-! ### PIXEL, the row it leaves and the frame it forms (R146, R148) -/

/-- A PIXEL request answered OK leaves its row byte in its row and no other change to the registers. -/
theorem exec_pixel_ok {v : Bit} {x y : Byte} {s t : State} (hx : x.toNat < 8) (hy : y.toNat < 8) (hwf : s.params.wf = true)
    (e : exec (.pixel v x y) s = .next t) (hok : t.response = some .ok) :
    t.params = s.params ∧ readReg (digitReg ⟨x.toNat, hx⟩) t.regs = some (rowByte y v) ∧
    ∀ r, r ≠ digitReg ⟨x.toNat, hx⟩ → readReg r t.regs = readReg r s.regs := by
  obtain rfl := Host.Outcome.next.inj ((exec_pixel_inRange v s hx hy).symm.trans e)
  exact ⟨rfl, emit_pAddr_applied hwf (emit_applied_of_ok hok) _ _, fun _ => emit_pAddr_others hwf _⟩

/-- Settles O27: `exec_pixel_ok` for the first request and then for the second. -/
theorem pixelIsDestructive : Obligations.PixelIsDestructive := by
  intro v v' x y y' s t u hx hy hy' hwf e hok e' hok'
  obtain ⟨hparams, hrow, hothers⟩ := exec_pixel_ok hx hy hwf e hok
  obtain ⟨-, hrow', hothers'⟩ := exec_pixel_ok hx hy' (hparams ▸ hwf) e' hok'
  exact ⟨hrow, hrow', fun r hne => (hothers' r hne).trans (hothers r hne)⟩

/-- A frame has one address byte and one data byte (R50). -/
theorem mkFrame_inj {a a' v v' : Byte} (h : mkFrame a v = mkFrame a' v') : a = a' ∧ v = v' :=
  ⟨by simpa using congrArg frameAddr h, by simpa using congrArg frameData h⟩

/-- With v = 1 the row byte is `2 ^ y`, so it gives y back. -/
theorem rowByte_one_injective {y y' : Byte} (hy : y.toNat < 8) (hy' : y'.toNat < 8) (h : rowByte y 1#1 = rowByte y' 1#1) : y = y' := by
  have hpow : (1#1 : Bit).toNat * 2 ^ y.toNat = (1#1 : Bit).toNat * 2 ^ y'.toNat := by
    rw [← toNat_rowByte hy, ← toNat_rowByte hy', h]
  exact BitVec.eq_of_toNat_eq (Nat.pow_right_injective le_rfl (Nat.eq_of_mul_eq_mul_left one_pos hpow))

theorem rowByte_zero {y : Byte} (hy : y.toNat < 8) : rowByte y 0#1 = 0x00#8 :=
  (rowByte_of_lt hy 0#1).trans (BitVec.zero_shiftLeft _)

/-- Settles O28: a PIXEL frame is the address of its row and its row byte (`formFrame_pixel_some`); both can be read back when v = 1
(`Params.wf_inj`, `digitReg_injective`, `rowByte_one_injective`), and with v = 0 the row byte is 0x00. -/
theorem pixelFramesAreInjective : Obligations.PixelFramesAreInjective := by
  refine fun p hwf => ⟨fun x y x' y' f h h' => ?injective, fun x y y' hy hy' => ?xAlone, fun v x y f h => ?selects⟩
  case injective =>
    obtain ⟨hx, hy, rfl⟩ := formFrame_pixel_some h
    obtain ⟨hx', hy', hframe⟩ := formFrame_pixel_some h'
    obtain ⟨haddr, hdata⟩ := mkFrame_inj hframe
    have hd := digitReg_injective (RegName.reg.inj (p.wf_inj hwf haddr))
    exact ⟨BitVec.eq_of_toNat_eq (Fin.mk.inj hd), rowByte_one_injective hy hy' hdata⟩
  case xAlone =>
    by_cases hx : x.toNat < 8
    · rw [formFrame_pixel p _ hx hy, formFrame_pixel p _ hx hy', rowByte_zero hy, rowByte_zero hy']
    · have hge := Nat.le_of_not_lt hx
      rw [formFrame_pixel_bad p _ (coordOk_of_x_ge hge y), formFrame_pixel_bad p _ (coordOk_of_x_ge hge y')]
  case selects =>
    obtain ⟨hx, -, rfl⟩ := formFrame_pixel_some h
    exact ⟨⟨x.toNat, hx⟩, rfl, by rw [frameAddr_mkFrame, decodeAddr_pAddr hwf]⟩

/-- Settles O29: PIXEL raises an error or emits a frame at a row's address, BRIGHTNESS one at INTENSITY's, and RAW can carry every
register's own address. -/
theorem requestKindsReachTheirRegisters : Obligations.RequestKindsReachTheirRegisters := by
  refine fun s hwf => ⟨fun v x y t e r hr => ?pixel, fun v a b t e r hr => ?brightness, fun r v b happlied => ?raw⟩
  case pixel =>
    cases hc : coordOk x y with
    | false =>
      obtain rfl := Host.Outcome.next.inj ((exec_pixel_bad v s hc).symm.trans e)
      rfl
    | true =>
      obtain ⟨hx, hy⟩ := (coordOk_iff x y).mp hc
      obtain rfl := Host.Outcome.next.inj ((exec_pixel_inRange v s hx hy).symm.trans e)
      exact emit_pAddr_others hwf _ (hr _)
  case brightness =>
    obtain rfl := Host.Outcome.next.inj ((exec_brightness v a b s).symm.trans e)
    exact emit_pAddr_others hwf _ hr
  case raw => exact ⟨s.params.pAddr.of (.reg r), _, exec_raw v _ b s, emit_pAddr_applied hwf happlied r b⟩

end Sys2Proof.Machine

/-! ## What a step runs, and what it refuses (R55, R243) -/

namespace Sys2Proof.Machine

theorem advance_of_head {s : State} {h : HostStep} {rest : List HostStep} (hp : s.pending = h :: rest) :
    s.advance = { s with pending := rest, draws := s.draws + 1 } := by
  rw [State.advance, hp, List.tail_cons]

theorem runInstr_of_not_admits {i : Instr} {s : State} (h : s.admits i = false) : runInstr i s = .refused .notSettled := by
  simp [runInstr, h]

/-- A request word is admitted in a settled run, and also when it forms no frame (R243). -/
theorem admits_request {w : ReqWord} {s : State} (h : s.settled = true ∨ frameOfStep s.params (.request w) = none) :
    s.admits (decodeReq w) = true := by
  rw [admits_decodeReq, Bool.or_eq_true, Bool.not_eq_true', Option.isSome_eq_false_iff, Option.isNone_iff_eq_none]
  exact h

theorem not_admits_request {w : ReqWord} {f : Frame} {s : State} (hset : s.settled = false)
    (hf : frameOfStep s.params (.request w) = some f) : s.admits (decodeReq w) = false := by
  rw [admits_decodeReq, hset, show formFrame _ _ _ _ _ = some f from hf]
  rfl

/-! ### A frame at D -/

theorem runHostStep_frame_decoded {f : Frame} {i : Instr} {s : State} (h : decodeFrame s.params f = .ok i) :
    runHostStep (.frame f) s = runInstr i s := by
  simp only [runHostStep, h]

theorem runHostStep_frame_undecoded {f : Frame} {e : Reject} {s : State} (h : decodeFrame s.params f = .error e) :
    runHostStep (.frame f) s = if s.settled then .next s else .refused .notSettled := by
  simp only [runHostStep, h, State.ignoreFrame_eq]

/-- What a frame decodes to is a command, admitted exactly in a settled run. -/
theorem admits_decodeFrame {p : Params} {f : Frame} {i : Instr} (h : decodeFrame p f = .ok i) (s : State) :
    s.admits i = s.settled := by
  unfold decodeFrame at h
  split at h
  · cases h
    exact admits_commandOf _ _ s
  · cases h

/-- Settles O33: an admitted request word runs (`runInstr_of_admits`). -/
theorem stepRunsTheRequestedInstruction : Obligations.StepRunsTheRequestedInstruction := by
  intro s w rest hp hadmit
  rw [step_of_head hp, ← advance_of_head hp]
  exact runInstr_of_admits (admits_request (s := s.advance) hadmit)

/-- Settles O34: a frame that decodes runs its command, one that does not leaves the advanced state as it is. -/
theorem stepRunsTheDeliveredFrame : Obligations.StepRunsTheDeliveredFrame := by
  intro s f rest hp hset
  rw [step_of_head hp, ← advance_of_head hp]
  refine ⟨fun i hi => ?decoded, fun e he => ?undecoded⟩
  case decoded =>
    rw [runHostStep_frame_decoded (s := s.advance) hi]
    exact runInstr_of_admits (admits_of_settled i (s := s.advance) hset)
  case undecoded => exact (runHostStep_frame_undecoded (s := s.advance) he).trans (if_pos hset)

/-! ### Boot steps and delays -/

theorem step_configureLink {s : State} {rest : List HostStep} (hp : s.pending = .configureLink :: rest) :
    step s = .next s.advance.configureLink :=
  step_of_head hp

theorem step_delay {s : State} {ms : Nat} {rest : List HostStep} (hp : s.pending = .delay ms :: rest) :
    step s = .next (s.advance.wait ms) :=
  step_of_head hp

/-- A delay settles the run when it brings the wait since the link's configuration to `T_SETTLE`. -/
theorem settled_wait {s : State} {w ms : Nat} (hlink : s.link = .configured w) (h : tSettle ≤ w + ms) : (s.wait ms).settled = true := by
  simp [State.wait, State.settled, hlink, h]

/-- Settles O35: an idle step is `step_of_idle`; the link configuration and a delay change only the link's set-up and the host's position;
a delay that is long enough settles the run (`settled_wait`). -/
theorem hostOnlyStepsChangeNoRegister : Obligations.HostOnlyStepsChangeNoRegister := by
  refine fun s => ⟨step_of_idle, fun h rest hp hkind => ?hostOnly, fun w ms rest hlink hp hlong => ?settles⟩
  case hostOnly =>
    obtain rfl | ⟨ms, rfl⟩ := hkind
    · exact ⟨_, step_configureLink hp, rfl, rfl, rfl, congrArg List.tail hp, rfl, rfl⟩
    · exact ⟨_, step_delay hp, by simp [hp]⟩
  case settles => exact ⟨_, step_delay hp, settled_wait (s := s.advance) hlink hlong⟩

/-! ### The one refusal -/

/-- Before the settling delay has passed, a host step that puts a frame on the link is refused. -/
theorem step_refused {s : State} {h : HostStep} {rest : List HostStep} {f : Frame} (hp : s.pending = h :: rest)
    (hset : s.settled = false) (hf : frameOfStep s.params h = some f) : step s = .refused .notSettled := by
  have hset' : s.advance.settled = false := hset
  rw [step_of_head hp]
  cases h with
  | configureLink => cases hf
  | delay ms => cases hf
  | request w => exact runInstr_of_not_admits (not_admits_request (s := s.advance) hset hf)
  | frame g =>
    cases hd : decodeFrame s.advance.params g with
    | ok i => rw [runHostStep_frame_decoded hd, runInstr_of_not_admits (by rw [admits_decodeFrame hd, hset'])]
    | error e => rw [runHostStep_frame_undecoded hd, hset']; rfl

/-- Every other host step completes. -/
theorem step_completes_of_admitted {s : State} {h : HostStep} {rest : List HostStep} (hp : s.pending = h :: rest)
    (hadmit : s.settled = true ∨ frameOfStep s.params h = none) : ∃ t, step s = .next t := by
  obtain hset | hnone := hadmit
  · exact step_completes hset
  cases h with
  | configureLink => exact ⟨_, step_configureLink hp⟩
  | delay ms => exact ⟨_, step_delay hp⟩
  | request w =>
    obtain ⟨t, ht, -⟩ := exec_effect (decodeReq w) s.advance
    exact ⟨t, (step_of_head hp).trans ((runInstr_of_admits (admits_request (s := s.advance) (.inr hnone))).trans ht)⟩
  | frame f => cases hnone

/-- Settles O36: with no step presented the machine is idle (`step_of_idle`); otherwise the step completes or is refused, by whether the run
is settled and the step has a frame (`step_completes_of_admitted`, `step_refused`). -/
theorem onlyAnUnsettledFrameIsNotAdmitted : Obligations.OnlyAnUnsettledFrameIsNotAdmitted := by
  intro s
  by_cases hbad : s.settled = false ∧ ∃ h rest f, s.pending = h :: rest ∧ frameOfStep s.params h = some f
  · have ⟨hset, h, rest, f, hp, hf⟩ := hbad
    have hrefused := step_refused hp hset hf
    exact ⟨.inr hrefused, iff_of_true hrefused hbad⟩
  · have hnext : ∃ t, step s = .next t := by
      cases hp : s.pending with
      | nil => exact ⟨s, step_of_idle hp⟩
      | cons h rest =>
        refine step_completes_of_admitted hp (or_iff_not_imp_left.mpr fun hset => ?_)
        exact Option.eq_none_iff_forall_ne_some.mpr fun f hf => hbad ⟨by simpa using hset, h, rest, f, hp, hf⟩
    obtain ⟨t, ht⟩ := hnext
    exact ⟨.inl ⟨t, ht⟩, iff_of_false (by rw [ht]; exact nofun) hbad⟩

end Sys2Proof.Machine

/-! ## Power-up, the ports and the display (R38, R39, R162, R240) -/

namespace Sys2Proof.Machine

/-- Settles O39: every cell reads ⊥ (`readReg_unwritten`), and the outputs and the host's list are empty in `State.reset`. -/
theorem powerUpLeavesEveryRegisterUnwritten : Obligations.PowerUpLeavesEveryRegisterUnwritten :=
  ⟨readReg_unwritten, rfl, rfl, rfl, rfl⟩

/-- The port of a written register drives its content. -/
theorem port_of_written {s : State} {r : Reg} {v : Byte} (h : readReg r s.regs = some v) : s.port r = v := by
  rw [State.port, h]

/-- Settles O40: the command writes its register only (`wroteOnly_write`), and the port of a written register drives its content. -/
theorem portsShowTheWrittenByte : Obligations.PortsShowTheWrittenByte := by
  intro r d s
  have hwrote := wroteOnly_write r d s
  refine ⟨_, exec_commandOf_reg r d s, port_of_written hwrote.value, fun r' hne hwritten => ?_⟩
  obtain ⟨v, hv⟩ := Option.ne_none_iff_exists'.mp hwritten
  rw [port_of_written hv, port_of_written ((hwrote.others r' hne).trans hv)]

theorem lit_of_otherConfig {s : State} (hwritten : readReg .shutdown s.regs ≠ none) (h : NormalConfig s.regs = false) (d b : Fin 8) :
    s.lit d b = Config.displayOtherLit s.regs d b := by
  have hdark : s.regs.shutdown ≠ none := hwritten
  rw [State.lit, if_neg hdark, h, if_neg Bool.false_ne_true]

theorem level_of_otherConfig {s : State} (h : NormalConfig s.regs = false) : s.level = Config.displayOtherLevel s.regs := by
  rw [State.level, h, if_neg Bool.false_ne_true]

/-- Settles O43: `lit_of_otherConfig` and `level_of_otherConfig`. -/
theorem otherConfigurationsShowDisplayOther : Obligations.OtherConfigurationsShowDisplayOther :=
  fun _ hwritten h => ⟨lit_of_otherConfig hwritten h, level_of_otherConfig h⟩

theorem levelOf_of_le {v : Byte} (h : v.toNat ≤ 0x0F) : levelOf v = v.toNat := if_pos h

theorem levelOf_of_gt {v : Byte} (h : 0x10 ≤ v.toNat) : levelOf v = Config.intensityLevelHi v := if_neg (Nat.not_le.mpr h)

/-- Settles O44: both sides of the bound are `levelOf_of_le` and `levelOf_of_gt`, and the presets are below it. -/
theorem levelOfAnIntensityByte : Obligations.LevelOfAnIntensityByte :=
  ⟨fun _ => levelOf_of_le, fun _ => levelOf_of_gt, levelOf_of_le (by decide), levelOf_of_le (by decide), levelOf_of_le (by decide)⟩

end Sys2Proof.Machine

/-! ## INIT, CLEAR and the bring-up (R182 to R185, R245)

Each is a list of register writes, INIT after a delay, and writes no register twice; so each register holds its byte or its old content by
the link's answer to its own frame. -/

namespace Sys2Proof.Machine

/-! ### Lists that write registers -/

/-- `WR <name>, v` for each write of a list. -/
def writeLines (ws : List (Reg × Byte)) : List Asm := ws.map fun w => wrLine w.1 w.2

theorem writesOrWaits_writeLines (ws : List (Reg × Byte)) : ∀ l ∈ writeLines ws, WritesOrWaits l :=
  List.forall_mem_map.mpr fun w _ => .wr w.1 w.2

theorem filterMap_lineWrite_writeLines (ws : List (Reg × Byte)) : (writeLines ws).filterMap lineWrite = ws := by
  rw [writeLines, List.filterMap_map]
  exact List.filterMap_some

/-- What issuing a list of writes does in a settled run, for every choice of the link's answers. -/
theorem issueLines_writeLines {ws : List (Reg × Byte)} {answers more : List LinkAnswer} {s : State} (hset : s.settled = true)
    (hlen : answers.length = ws.length) (hscript : s.linkScript = answers ++ more) :
    ∃ t rep, issueLines (writeLines ws) s = .next (t, rep) ∧ rep.requests = ws.length ∧
      rep.frames = ws.map (writeFrame s.params) ∧ (rep.success = true ↔ ∀ a ∈ answers, a = .ok) ∧
      t.regs = applyAll s.params ((ws.map (writeFrame s.params)).zip answers) s.regs := by
  have hwrites := filterMap_lineWrite_writeLines ws
  obtain ⟨t, rep, hissue, hrequests, hframes, hsuccess, hregs⟩ :=
    issueLines_writes (writesOrWaits_writeLines ws) hset (by rw [hwrites, hlen]) hscript
  rw [hwrites] at hframes
  exact ⟨t, rep, hissue, hrequests.trans hlen, hframes, hsuccess, hframes ▸ hregs⟩

/-- A delay before a list only waits. -/
theorem issueLines_delay (ms : Nat) (ls : List Asm) (s : State) :
    issueLines (.delay ms :: ls) s = issueLines ls ((s.present (.delay ms)).advance.wait ms) := by
  have hparams : ((s.present (.delay ms)).advance.wait ms).params = s.params := State.wait_params ms _
  rw [issueLines, issueLines, hparams, List.map_cons]
  exact issue_cons_next Report.start (step_present_delay ms s)

/-! ### A register after a list that writes none twice -/

theorem readReg_applyFrame_writeFrame {p : Params} (hwf : p.wf = true) (w : Reg × Byte) (rf : RegFile) (r : Reg) :
    readReg r (applyFrame p (writeFrame p w) rf) = if r = w.1 then some w.2 else readReg r rf := by
  rw [writeFrame, applyFrame_pAddr hwf, readReg_writeReg]

/-- No answer of the link makes a list change a register that it does not name. -/
theorem readReg_of_not_written {p : Params} (hwf : p.wf = true) {r : Reg} {ws : List (Reg × Byte)} (hnot : ∀ w ∈ ws, w.1 ≠ r)
    (answers : List LinkAnswer) (rf : RegFile) : readReg r (applyAll p ((ws.map (writeFrame p)).zip answers) rf) = readReg r rf := by
  rw [readReg_applyAll, lastApplied_of_not_written hwf hnot]

/-- A register that a list writes once holds the byte written, or its old content if that frame was not applied. -/
theorem readReg_of_written_once {p : Params} (hwf : p.wf = true) {r : Reg} {v : Byte} {a : LinkAnswer} :
    ∀ {ws : List (Reg × Byte)} {answers : List LinkAnswer} {k : Nat} (rf : RegFile), (ws.map Prod.fst).Nodup →
      ws[k]? = some (r, v) → answers[k]? = some a →
      readReg r (applyAll p ((ws.map (writeFrame p)).zip answers) rf) = if answerApplied a then some v else readReg r rf := by
  intro ws
  induction ws with
  | nil => intro answers k rf _ hw; cases hw
  | cons w ws ih =>
    intro answers k rf hnodup hw ha
    obtain ⟨hhead, htail⟩ := List.nodup_cons.mp hnodup
    cases answers with
    | nil => cases ha
    | cons b answers =>
      rw [List.map_cons, List.zip_cons_cons, applyAll_cons]
      cases k with
      | zero =>
        obtain rfl : w = (r, v) := Option.some.inj hw
        obtain rfl : b = a := Option.some.inj ha
        have hnot : ∀ w ∈ ws, w.1 ≠ r := fun w hmem heq => hhead (List.mem_map.mpr ⟨w, hmem, heq⟩)
        rw [readReg_of_not_written hwf hnot]
        cases answerApplied b <;> simp [readReg_applyFrame_writeFrame hwf]
      | succ k =>
        have hne : r ≠ w.1 := by
          rintro rfl
          exact hhead (List.mem_map.mpr ⟨_, List.mem_of_getElem? hw, rfl⟩)
        rw [ih _ htail hw ha]
        cases answerApplied b <;> simp [readReg_applyFrame_writeFrame hwf, hne]

/-- With every answer OK the register holds the byte written. -/
theorem readReg_of_written_once_ok {p : Params} (hwf : p.wf = true) {ws : List (Reg × Byte)} {answers : List LinkAnswer}
    (hlen : answers.length = ws.length) (hok : ∀ a ∈ answers, a = .ok) (hnodup : (ws.map Prod.fst).Nodup) {k : Nat} {r : Reg} {v : Byte}
    (hw : ws[k]? = some (r, v)) (rf : RegFile) : readReg r (applyAll p ((ws.map (writeFrame p)).zip answers) rf) = some v := by
  obtain ⟨hk, -⟩ := List.getElem?_eq_some_iff.mp hw
  have ha : answers[k]? = some .ok := by
    rw [List.getElem?_eq_getElem (hlen ▸ hk), hok _ (List.getElem_mem _)]
  rw [readReg_of_written_once hwf rf hnodup hw ha]
  rfl

/-! ### INIT -/

theorem initLines_eq : initLines = .delay tSettle :: writeLines initWrites := rfl

theorem nodup_initWrites : (initWrites.map Prod.fst).Nodup := by decide

theorem digit_initWrites (d : Fin 8) : initWrites[5 + d.val]? = some (digitReg d, 0x00#8) := by
  revert d; decide

/-- The display after INIT (R183): no LED lit, level 7. -/
theorem display_of_initWrites {t : State} (h : ∀ (k : Nat) r v, initWrites[k]? = some (r, v) → readReg r t.regs = some v) :
    NormalConfig t.regs = true ∧ (∀ d b, t.lit d b = false) ∧ t.level = 7 := by
  have hnormal : NormalConfig t.regs = true :=
    (normalConfig_iff t.regs).mpr ⟨h 0 _ _ rfl, h 1 _ _ rfl, h 2 _ _ rfl, h 3 _ _ rfl⟩
  refine ⟨hnormal, fun d b => ?dark, ?level⟩
  case dark =>
    rw [lit_of_normalConfig hnormal, h _ _ _ (digit_initWrites d)]
    exact BitVec.getLsbD_zero
  case level =>
    rw [level_of_normalConfig hnormal, h 4 .intensity 0x07#8 rfl]
    exact levelOf_of_le (by decide)

/-- Settles O45: after the settling delay the run is settled and INIT is `issueLines_writeLines`; each register is written once
(`readReg_of_written_once`), and with every answer OK the display is `display_of_initWrites`. -/
theorem initEndsInTheNormalConfiguration : Obligations.InitEndsInTheNormalConfiguration := by
  intro answers more w s hwf hlink hlen hscript
  have hset : ((s.present (.delay tSettle)).advance.wait tSettle).settled = true := settled_wait hlink (Nat.le_add_left _ _)
  obtain ⟨t, rep, hissue, hrequests, hframes, hsuccess, hregs⟩ :=
    issueLines_writeLines (ws := initWrites) (more := more) hset hlen ((State.wait_linkScript _ _).trans hscript)
  simp only [State.wait_params, State.advance_params, State.present_params] at hframes hregs
  simp only [State.wait_regs, State.advance_regs, State.present_regs] at hregs
  refine ⟨t, rep, by rw [initLines_eq, issueLines_delay, hissue], hrequests, hframes, hsuccess, fun k r v a hw ha => ?registers,
    fun hok => ?allOk⟩
  case registers =>
    rw [hregs]
    exact readReg_of_written_once hwf s.regs nodup_initWrites hw ha
  case allOk =>
    refine display_of_initWrites fun k r v hw => ?_
    rw [hregs]
    exact readReg_of_written_once_ok hwf hlen hok nodup_initWrites hw s.regs

/-! ### CLEAR -/

/-- The eight writes of CLEAR, in order (R184). -/
def clearWrites : List (Reg × Byte) := digitIndices.map fun d => (digitReg d, 0x00#8)

theorem clearLines_eq : clearLines = writeLines clearWrites := rfl

theorem nodup_clearWrites : (clearWrites.map Prod.fst).Nodup := by decide

theorem digit_clearWrites (d : Fin 8) : clearWrites[d.val]? = some (digitReg d, 0x00#8) := by
  revert d; decide

/-- CLEAR writes rows only. -/
theorem not_written_clearWrites {r : Reg} (hr : ∀ d, r ≠ digitReg d) : ∀ w ∈ clearWrites, w.1 ≠ r :=
  List.forall_mem_map.mpr fun d _ => (hr d).symm

/-- Settles O46: CLEAR is `issueLines_writeLines` of eight writes, one to each row (`readReg_of_written_once`) and none to another register
(`readReg_of_not_written`). -/
theorem clearBlanksEveryRow : Obligations.ClearBlanksEveryRow := by
  intro answers more s hwf hset hlen hscript
  obtain ⟨t, rep, hissue, hrequests, hframes, hsuccess, hregs⟩ :=
    issueLines_writeLines (ws := clearWrites) hset hlen hscript
  refine ⟨t, rep, clearLines_eq ▸ hissue, hrequests, hframes.trans List.map_map, hsuccess, fun d a ha => ?row, fun r hr => ?control⟩
  case row =>
    rw [hregs]
    exact readReg_of_written_once hwf s.regs nodup_clearWrites (digit_clearWrites d) ha
  case control =>
    rw [hregs]
    exact readReg_of_not_written hwf (not_written_clearWrites hr) answers s.regs

/-! ### A bring-up in the wrong order (R245) -/

/-- The four writes of program P6, SHUTDOWN first. -/
def bringUpWrites : List (Reg × Byte) := [(.shutdown, 0x01#8), (.scanLimit, 0x07#8), (.decodeMode, 0x00#8), (.displayTest, 0x00#8)]

theorem nodup_bringUpWrites : (bringUpWrites.map Prod.fst).Nodup := by decide

theorem not_written_bringUpWrites (d : Fin 8) : ∀ w ∈ bringUpWrites, w.1 ≠ digitReg d := by
  revert d; decide

/-- Settles O49: both lists are `issueLines_writeLines` with every answer OK, so each register written holds its byte
(`readReg_of_written_once_ok`); a configuration that is not normal shows `DISPLAY_OTHER` (`lit_of_otherConfig`). -/
theorem bringUpOrderIsNotEnforced : Obligations.BringUpOrderIsNotEnforced := by
  intro more s hwf hset hscript
  refine ⟨?first, ?all⟩
  case first =>
    obtain ⟨t, rep, hissue, -, -, -, hregs⟩ :=
      issueLines_writeLines (ws := [(.shutdown, 0x01#8)]) (answers := [.ok]) hset rfl hscript
    have hstored : readReg .shutdown t.regs = some 0x01#8 := by
      rw [hregs]
      exact readReg_of_written_once_ok hwf rfl (by simp) (by simp) (k := 0) rfl s.regs
    exact ⟨t, rep, hissue, hstored, lit_of_otherConfig (by rw [hstored]; exact Option.some_ne_none _)⟩
  case all =>
    obtain ⟨t, rep, hissue, -, -, -, hregs⟩ :=
      issueLines_writeLines (ws := bringUpWrites) (answers := [.ok, .ok, .ok, .ok]) hset rfl hscript
    have hstored : ∀ k r v, bringUpWrites[k]? = some (r, v) → readReg r t.regs = some v := fun k r v hw => by
      rw [hregs]
      exact readReg_of_written_once_ok hwf rfl (by simp) nodup_bringUpWrites hw s.regs
    have hnormal : NormalConfig t.regs = true :=
      (normalConfig_iff t.regs).mpr ⟨hstored 1 _ _ rfl, hstored 2 _ _ rfl, hstored 3 _ _ rfl, hstored 0 _ _ rfl⟩
    refine ⟨t, rep, hissue, hnormal, fun d => ?_⟩
    rw [hregs]
    exact readReg_of_not_written hwf (not_written_bringUpWrites d) _ s.regs

end Sys2Proof.Machine
